-- ==== Sys2Proof/Word.lean ====
section
/-!
DEFINITION. The bit-vector types the decoder block works on (00_scope.md R8, R9). Each is an `abbrev`,
so the library's `BitVec` operations and lemmas apply to it as they stand: `++` puts its left operand
in the more significant bits (R9), `extractLsb' lo n` is the field of `n` bits from bit `lo` up (R8),
`setWidth` widens with zeros (`zext` of R9). Every value of the spec is unsigned (R9).
-/

namespace Sys2Proof

/-- One byte (R9): a frame byte, a checksum, an entry of TABLE. -/
abbrev Byte := BitVec 8

/-- A command word as the CMD port carries it: `OP ++ ARG` (30_encoding.md R60). -/
abbrev CmdWord := BitVec 72

/-- The ARG field of a command word, a checksum operand, or the RSP_DATA port (R60, R35). -/
abbrev Word64 := BitVec 64

/-- An 18-bit position (R62, R126). -/
abbrev Position := BitVec 18

/-- A resolution in counts per revolution (10_state.md R25). -/
abbrev Resolution := BitVec 32

/-- A binary32 number, held as its 32-bit encoding, so that `bits32` of R11 is the identity. -/
abbrev F32 := BitVec 32

end Sys2Proof
end

