-- ==== Sys2Proof/Syntax.lean ====
section
/-!
DEFINITION. The six commands of the decoder block (30_encoding.md R65), one constructor for each row of
spec/opcode_table.json. Operands have the widths of R61 and R62, so a term of `Instr` carries exactly the
operand bits of its command word and none of the reserved ones.
-/

namespace Sys2Proof

/-- A captured frame: six bytes, numbered in the order they are received on the wire
(20_memory.md R41, 41_angle.md R121). -/
structure Frame where
  b0 : Byte
  b1 : Byte
  b2 : Byte
  b3 : Byte
  b4 : Byte
  b5 : Byte
  deriving DecidableEq, Repr

/-- The commands of the block (R65). -/
inductive Instr where
  /-- CHKSUM, format FX: the raw checksum of a 64-bit operand (40_checksum.md R107). -/
  | chksum (x : Word64)
  /-- DECANG, format FF: decode an angle frame (41_angle.md R130). -/
  | decang (f : Frame)
  /-- CONVERT, format FP: scale a position to degrees (R135). -/
  | convert (p : Position)
  /-- DECMT, format FF: extract the multiturn counter (42_multiturn.md R151). -/
  | decmt (f : Frame)
  /-- RDVALID, format FN: read the last checksum-validity flag (43_control.md R165). -/
  | rdvalid
  /-- INIT, format FR: set the resolution register (R161). -/
  | init (r : Resolution)
  deriving DecidableEq, Repr

end Sys2Proof
end

