-- ==== Sys2Proof/WellFormed.lean ====
section
/-!
DEFINITION. Well-formedness by the assembler's operand ranges (30_encoding.md R70: "An operand out of its
range is an assembly error, not an encoding"). `Source` is one line of the assembler with its operands as
plain numbers, before any range is checked; `Source.wellFormed` is the check. An `Instr` has operands of
the exact widths, so its source form always passes (Laws/Assembler.lean proves it).
-/

namespace Sys2Proof

/-- One assembler line (R70), and the pseudo-instruction CRC40 (R71). A frame is given as its six bytes
in receive order or as one 48-bit number. -/
inductive Source where
  | chksum (x : Nat)
  | decang (bytes : List Nat)
  | decangWord (f : Nat)
  | convert (p : Nat)
  | decmt (bytes : List Nat)
  | decmtWord (f : Nat)
  | rdvalid
  | init (r : Nat)
  | crc40 (bytes : List Nat)
  deriving DecidableEq, Repr

/-- `n` numbers, each a byte. -/
def bytesOk (n : Nat) (bytes : List Nat) : Bool :=
  bytes.length == n && bytes.all (· < 2 ^ 8)

/-- Every operand is in the range R70 gives it. -/
def Source.wellFormed : Source → Bool
  | .chksum x => x < 2 ^ 64
  | .decang bytes => bytesOk 6 bytes
  | .decangWord f => f < 2 ^ 48
  | .convert p => p < 2 ^ 18
  | .decmt bytes => bytesOk 6 bytes
  | .decmtWord f => f < 2 ^ 48
  | .rdvalid => true
  | .init r => r < 2 ^ 32
  | .crc40 bytes => bytesOk 5 bytes

/-- The bytes of a frame as numbers, in receive order. -/
def Frame.bytes (f : Frame) : List Nat :=
  [f.b0.toNat, f.b1.toNat, f.b2.toNat, f.b3.toNat, f.b4.toNat, f.b5.toNat]

/-- The assembler line that stands for a command (R70). -/
def Instr.source : Instr → Source
  | .chksum x => .chksum x.toNat
  | .decang f => .decang f.bytes
  | .convert p => .convert p.toNat
  | .decmt f => .decmt f.bytes
  | .rdvalid => .rdvalid
  | .init r => .init r.toNat

/-- A command is well-formed when its assembler line is (R70). -/
def Instr.wellFormed (i : Instr) : Bool :=
  i.source.wellFormed

end Sys2Proof
end

