-- ==== Sys2Proof/Decode.lean ====
section
/-!
DEFINITION. The decoder and the encoder of command words (30_encoding.md R60 to R67). The decoder is total
on all 72-bit words and rejects by name; the encoder writes the word of a command from the same tables.
A command word is one 72-bit number on the CMD port (10_state.md R35), so no byte order enters here.
-/

namespace Sys2Proof

/-- OP, the top eight bits of a command word (R60). -/
def opField (w : CmdWord) : BitVec 8 := w.extractLsb' 64 8

/-- ARG, the low 64 bits of a command word (R60). -/
def argField (w : CmdWord) : Word64 := w.extractLsb' 0 64

/-- A frame from its 48-bit operand: byte k is `F[47-8k : 40-8k]` (R63). -/
def Frame.ofWord (w : BitVec 48) : Frame where
  b0 := w.extractLsb' 40 8
  b1 := w.extractLsb' 32 8
  b2 := w.extractLsb' 24 8
  b3 := w.extractLsb' 16 8
  b4 := w.extractLsb' 8 8
  b5 := w.extractLsb' 0 8

/-- The 48-bit operand of a frame, first received byte most significant (R63, 20_memory.md R44). -/
def Frame.word (f : Frame) : BitVec 48 :=
  f.b0 ++ f.b1 ++ f.b2 ++ f.b3 ++ f.b4 ++ f.b5

/-- Why a word is no command: the two cases of R67. -/
inductive Rejection where
  /-- An OP of 0x00 or 0x07 to 0xFF. -/
  | unassignedOp (op : BitVec 8)
  /-- An assigned OP with a reserved ARG bit set to 1. -/
  | reservedBitSet (op : BitVec 8)
  deriving DecidableEq, Repr

/-- The command a word stands for (R65, R66), or why it is illegal (R67). Each branch checks the reserved
ARG bits of its format (R61) and takes the operand bits as they stand (R62). -/
def decode (w : CmdWord) : Except Rejection Instr :=
  let op := opField w
  let arg := argField w
  if op = 0x01 then .ok (.chksum arg)
  else if op = 0x02 then
    if arg.extractLsb' 48 16 = 0 then .ok (.decang (.ofWord (arg.extractLsb' 0 48)))
    else .error (.reservedBitSet op)
  else if op = 0x03 then
    if arg.extractLsb' 18 46 = 0 then .ok (.convert (arg.extractLsb' 0 18))
    else .error (.reservedBitSet op)
  else if op = 0x04 then
    if arg.extractLsb' 48 16 = 0 then .ok (.decmt (.ofWord (arg.extractLsb' 0 48)))
    else .error (.reservedBitSet op)
  else if op = 0x05 then
    if arg = 0 then .ok .rdvalid
    else .error (.reservedBitSet op)
  else if op = 0x06 then
    if arg.extractLsb' 32 32 = 0 then .ok (.init (arg.extractLsb' 0 32))
    else .error (.reservedBitSet op)
  else .error (.unassignedOp op)

/-- The OP of a command (R65). -/
def Instr.op : Instr → BitVec 8
  | .chksum _ => 0x01
  | .decang _ => 0x02
  | .convert _ => 0x03
  | .decmt _ => 0x04
  | .rdvalid => 0x05
  | .init _ => 0x06

/-- The ARG of a command: its operand, with the reserved bits of its format 0 (R61). -/
def Instr.arg : Instr → Word64
  | .chksum x => x
  | .decang f => f.word.setWidth 64
  | .convert p => p.setWidth 64
  | .decmt f => f.word.setWidth 64
  | .rdvalid => 0
  | .init r => r.setWidth 64

/-- The command word of a command: `OP ++ ARG` (R60). -/
def encode (i : Instr) : CmdWord :=
  i.op ++ i.arg

/-- One row of R66: a word is the row's command exactly when `w &&& mask = pattern`. -/
structure EncodingRow where
  mask : CmdWord
  pattern : CmdWord
  deriving DecidableEq, Repr

/-- The words of a row (R66). -/
def EncodingRow.matches (row : EncodingRow) (w : CmdWord) : Bool :=
  w &&& row.mask == row.pattern

/-- The row of R66 a command's words stand in. -/
def Instr.row : Instr → EncodingRow
  | .chksum _ => ⟨0xFF0000000000000000, 0x010000000000000000⟩
  | .decang _ => ⟨0xFFFFFF000000000000, 0x020000000000000000⟩
  | .convert _ => ⟨0xFFFFFFFFFFFFFC0000, 0x030000000000000000⟩
  | .decmt _ => ⟨0xFFFFFF000000000000, 0x040000000000000000⟩
  | .rdvalid => ⟨0xFFFFFFFFFFFFFFFFFF, 0x050000000000000000⟩
  | .init _ => ⟨0xFFFFFFFFFF00000000, 0x060000000000000000⟩

/-- The command word whose `nbits` low bits are those of `w`, bit 0 least significant, every bit above
`nbits` 0: the opcode table numbers a command word as one 72-bit number. -/
def tableWord (nbits w : Nat) : CmdWord :=
  BitVec.ofNat 72 (w % 2 ^ nbits)

/-- The command the decoder reads from an instruction of the opcode table whose bits are `w`. -/
def decodeTableWord (nbits w : Nat) : Option Instr :=
  match decode (tableWord nbits w) with
  | .ok i => some i
  | .error _ => none

end Sys2Proof
end

