-- ==== Sys2Proof/Config.lean ====
section
/-!
DEFINITION. The free values of the model: constants with no body, so that no proof can learn what they
are. The parameters of 00_scope.md R7 are settled by the spec ("No parameter is left open") and stand,
where a later repair may mend them, in Sys2Proof/Machine/Params.lean.
-/

namespace Sys2Proof.Config

/-- The sign bit of the NaN a binary32 operation on these two operands delivers. IEEE 754, which
00_scope.md R11 names as the arithmetic, does not fix it; the angle converter never meets it
(41_angle.md R131). Log entry 7. -/
opaque nanSign : F32 → F32 → BitVec 1

/-- The 22 payload bits below the quiet bit of the NaN a binary32 operation on these two operands
delivers. IEEE 754 does not fix them; the angle converter never meets them (R131). Log entry 7. -/
opaque nanPayload : F32 → F32 → BitVec 22

end Sys2Proof.Config
end

