-- ==== Sys2Proof/Machine/Params.lean ====
section
/-!
DEFINITION. The implementation parameters of 00_scope.md R7, at the values the spec settles, and the values
the model names where the spec leaves a reset value open. Widths (FRAME_BYTES, CRC_WIDTH, CRC_INPUT,
POS_BITS, MT_BITS, RES_W) are in the types of Word.lean and Syntax.lean.
-/

namespace Sys2Proof.Machine

/-- CRC_POLY (R7; 40_checksum.md R101). -/
def crcPoly : Byte := 0x97

/-- CRC_INIT (R7; R104). -/
def crcInit : Byte := 0x00

/-- CHECK_INVERT (R7; 41_angle.md R123). -/
def checkInvert : Byte := 0xFF

/-- STATUS_MASK, applied to frame byte 3 (R7; R124). -/
def statusMask : Byte := 0x02

/-- POS_SHIFT: the low bits of the 24-bit position word that are discarded (R7; R126). -/
def posShift : Nat := 6

/-- DEG_PER_REV as a binary32 number: the encoding R11 gives `360.0f`. -/
def deg360 : F32 := 0x43B40000

/-- The CMD port when the host presents nothing: the all-zero word of R67 ("an idle or unwritten port").
DEDUCED, log entry 2. -/
def idleWord : CmdWord := 0

/-- ACC after reset. The spec leaves it unspecified (70_reset_and_hazards.md R241).
DESIGN CHOICE, log entry 3. -/
def accReset : Byte := 0x00

/-- RSP_DATA after reset. The spec gives no value. DESIGN CHOICE, log entry 4. -/
def rspDataReset : Word64 := 0

end Sys2Proof.Machine
end

