-- ==== Sys2Proof/Machine/Operands.lean ====
section
/-!
DEFINITION. The operand fields the commands read from a frame (30_encoding.md R64) and the bytes of a
checksum operand (20_memory.md R43). Every multi-byte field is big-endian (R42).
-/

namespace Sys2Proof.Machine

/-- The eight bytes of a checksum operand, most significant first (R43). -/
def bytesMsbFirst (x : Word64) : List Byte :=
  [x.extractLsb' 56 8, x.extractLsb' 48 8, x.extractLsb' 40 8, x.extractLsb' 32 8,
    x.extractLsb' 24 8, x.extractLsb' 16 8, x.extractLsb' 8 8, x.extractLsb' 0 8]

/-- Five bytes packed into a checksum operand, the first in bits 39 to 32 (41_angle.md R122; also the
operand of the pseudo-instruction CRC40, 30_encoding.md R71). -/
def pack40 (b0 b1 b2 b3 b4 : Byte) : Word64 :=
  (b0 ++ b1 ++ b2 ++ b3 ++ b4).setWidth 64

/-- `packed`, the checksum input of a frame (R122). -/
def packed (f : Frame) : Word64 :=
  pack40 f.b0 f.b1 f.b2 f.b3 f.b4

/-- `w24`, the 24-bit position word of a frame (R126). -/
def positionWord (f : Frame) : BitVec 24 :=
  f.b2 ++ f.b3 ++ f.b4

/-- The 18-bit position of a frame: `w24 >> 6` (R126). -/
def position (f : Frame) : Position :=
  (positionWord f).extractLsb' posShift 18

/-- `M`, the multiturn counter of a frame (42_multiturn.md R150). -/
def multiturn (f : Frame) : BitVec 16 :=
  f.b0 ++ f.b1

end Sys2Proof.Machine
end

