-- ==== Sys2Proof/Machine/Table.lean ====
section
/-!
DEFINITION. TABLE, the only memory of the block (10_state.md R34, 20_memory.md R40): 256 constant bytes at
8-bit addresses. Every address is in range, so a read never faults (R40, R46), and a read has no side
effect (R47). No operation writes TABLE (R34, R40): there is none here.

A memory is a list of (address, byte) pairs in one canonical form. An address that is not listed reads as
the contents R102 gives it, so the ROM as manufactured is the empty list.
-/

namespace Sys2Proof.Machine

/-! The sixteen rows of R102's table. -/

def romRow0 : List Byte := [0x00, 0x97, 0xB9, 0x2E, 0xE5, 0x72, 0x5C, 0xCB, 0x5D, 0xCA, 0xE4, 0x73, 0xB8, 0x2F, 0x01, 0x96]
def romRow1 : List Byte := [0xBA, 0x2D, 0x03, 0x94, 0x5F, 0xC8, 0xE6, 0x71, 0xE7, 0x70, 0x5E, 0xC9, 0x02, 0x95, 0xBB, 0x2C]
def romRow2 : List Byte := [0xE3, 0x74, 0x5A, 0xCD, 0x06, 0x91, 0xBF, 0x28, 0xBE, 0x29, 0x07, 0x90, 0x5B, 0xCC, 0xE2, 0x75]
def romRow3 : List Byte := [0x59, 0xCE, 0xE0, 0x77, 0xBC, 0x2B, 0x05, 0x92, 0x04, 0x93, 0xBD, 0x2A, 0xE1, 0x76, 0x58, 0xCF]
def romRow4 : List Byte := [0x51, 0xC6, 0xE8, 0x7F, 0xB4, 0x23, 0x0D, 0x9A, 0x0C, 0x9B, 0xB5, 0x22, 0xE9, 0x7E, 0x50, 0xC7]
def romRow5 : List Byte := [0xEB, 0x7C, 0x52, 0xC5, 0x0E, 0x99, 0xB7, 0x20, 0xB6, 0x21, 0x0F, 0x98, 0x53, 0xC4, 0xEA, 0x7D]
def romRow6 : List Byte := [0xB2, 0x25, 0x0B, 0x9C, 0x57, 0xC0, 0xEE, 0x79, 0xEF, 0x78, 0x56, 0xC1, 0x0A, 0x9D, 0xB3, 0x24]
def romRow7 : List Byte := [0x08, 0x9F, 0xB1, 0x26, 0xED, 0x7A, 0x54, 0xC3, 0x55, 0xC2, 0xEC, 0x7B, 0xB0, 0x27, 0x09, 0x9E]
def romRow8 : List Byte := [0xA2, 0x35, 0x1B, 0x8C, 0x47, 0xD0, 0xFE, 0x69, 0xFF, 0x68, 0x46, 0xD1, 0x1A, 0x8D, 0xA3, 0x34]
def romRow9 : List Byte := [0x18, 0x8F, 0xA1, 0x36, 0xFD, 0x6A, 0x44, 0xD3, 0x45, 0xD2, 0xFC, 0x6B, 0xA0, 0x37, 0x19, 0x8E]
def romRowA : List Byte := [0x41, 0xD6, 0xF8, 0x6F, 0xA4, 0x33, 0x1D, 0x8A, 0x1C, 0x8B, 0xA5, 0x32, 0xF9, 0x6E, 0x40, 0xD7]
def romRowB : List Byte := [0xFB, 0x6C, 0x42, 0xD5, 0x1E, 0x89, 0xA7, 0x30, 0xA6, 0x31, 0x1F, 0x88, 0x43, 0xD4, 0xFA, 0x6D]
def romRowC : List Byte := [0xF3, 0x64, 0x4A, 0xDD, 0x16, 0x81, 0xAF, 0x38, 0xAE, 0x39, 0x17, 0x80, 0x4B, 0xDC, 0xF2, 0x65]
def romRowD : List Byte := [0x49, 0xDE, 0xF0, 0x67, 0xAC, 0x3B, 0x15, 0x82, 0x14, 0x83, 0xAD, 0x3A, 0xF1, 0x66, 0x48, 0xDF]
def romRowE : List Byte := [0x10, 0x87, 0xA9, 0x3E, 0xF5, 0x62, 0x4C, 0xDB, 0x4D, 0xDA, 0xF4, 0x63, 0xA8, 0x3F, 0x11, 0x86]
def romRowF : List Byte := [0xAA, 0x3D, 0x13, 0x84, 0x4F, 0xD8, 0xF6, 0x61, 0xF7, 0x60, 0x4E, 0xD9, 0x12, 0x85, 0xAB, 0x3C]

/-- The rows of R102 in order: the entry for index i is in row `i & 0xF0`, column `i & 0x0F`. -/
def romRows : List (List Byte) :=
  [romRow0, romRow1, romRow2, romRow3, romRow4, romRow5, romRow6, romRow7] ++
    [romRow8, romRow9, romRowA, romRowB, romRowC, romRowD, romRowE, romRowF]

/-- The manufactured contents of TABLE at index `i` (R102). -/
def romByte (i : Byte) : Byte :=
  (romRows.getD (i.toNat / 16) []).getD (i.toNat % 16) 0

/-- One bit of the MSB-first construction (R103): shift left, and reduce by the polynomial when the bit
shifted out is 1. -/
def crcBit (t : Byte) : Byte :=
  if t.msb then (t <<< 1) ^^^ crcPoly else t <<< 1

/-- `n` bits of the MSB-first construction (R103). -/
def crcBits : Nat → Byte → Byte
  | 0, t => t
  | n + 1, t => crcBits n (crcBit t)

/-- The contents of a byte memory: the cells that differ from what an unlisted address reads as. -/
abbrev Memory := List Host.Cell

/-- TABLE as manufactured (R34): every entry as R102 lists it. -/
def Memory.manufactured : Memory := []

/-- `TABLE[i]` (R10): the only memory read of the block. -/
def tableRead (t : Memory) (i : Byte) : Byte :=
  match t.lookup i.toNat with
  | some b => b
  | none => romByte i

/-- The addresses of a memory rise strictly. -/
def Memory.rising : Memory → Bool
  | [] => true
  | [_] => true
  | c :: d :: rest => c.1 < d.1 && Memory.rising (d :: rest)

/-- The canonical form: addresses strictly rising and inside the 256 entries, and no entry equal to what
its address reads as when it is not listed. -/
def Memory.wf (t : Memory) : Bool :=
  Memory.rising t && t.all fun c => c.1 < 256 && c.2 != romByte (BitVec.ofNat 8 c.1)

end Sys2Proof.Machine
end

