-- ==== Sys2Proof/Machine/State.lean ====
section
/-!
DEFINITION. The state of one decoder block (10_state.md R20: RES, LAST_VALID, ACC, TABLE, "No other state
exists"), its ports (R35), and the reasons a step can stop.
-/

namespace Sys2Proof.Machine

/-- The response codes (60_exceptions.md R201). Codes 6 and 7 are never produced, so no constructor
stands for them (93_implementation_defined.md U11). -/
inductive RspCode where
  /-- The command completed. -/
  | ok
  /-- Checksum mismatch or status bit clear, not distinguished. -/
  | frameInvalid
  /-- The command needs RES and RES = 0. -/
  | uninit
  /-- INIT with R = 0. -/
  | resZero
  /-- INIT while RES is not 0. -/
  | reinit
  /-- Unassigned OP, or a reserved ARG bit set. -/
  | illegal
  deriving DecidableEq, Repr

/-- What the host does at the block's input ports for one step: it presents a command word at CMD, or it
asserts RESET. The two are never simultaneous (70_reset_and_hazards.md R240). -/
inductive PortInput where
  | command (w : CmdWord)
  | reset
  deriving DecidableEq, Repr

/-- The state of one decoder block and its ports. -/
structure State where
  /-- RES, S0: the resolution, 0 when unset (R25). -/
  res : Resolution
  /-- LAST_VALID, S1: whether the checksum of the last accepted DECANG matched (R29). -/
  lastValid : Bool
  /-- ACC, S2: the accumulator of the checksum engine (R33). -/
  acc : Byte
  /-- TABLE, S3: the checksum table (R34), as the cells that differ from R102. -/
  table : Memory
  /-- RSP_CODE, output port: the code of the command just executed (R35, R201). -/
  rspCode : RspCode
  /-- RSP_DATA, output port: the data of the command just executed (R35, R202). -/
  rspData : Word64
  /-- CMD and RESET, input ports: what the host presents, this step's input first and then the later
  ones in the order it issues them (R35, R22, R50). The host's own, not the block's. Log entry 1. -/
  inputs : List PortInput
  deriving DecidableEq, Repr

/-- The faults of the block: none. "There is no partial step, no fault state and no stuck state: every
command word has a defined response" (00_scope.md R12). -/
inductive Fault where
  deriving DecidableEq, Repr

/-- The refusals of the model. -/
inductive Refusal where
  /-- Raised by the dispatcher for an instruction with no meaning yet; no arm raises it, since all six
  commands have theirs. Safe: the model stops where the hardware goes on. -/
  | notModelled (mnemonic : String)
  deriving DecidableEq, Repr

/-- The block right after reset (70_reset_and_hazards.md R241), nothing presented at its input ports.
RES and LAST_VALID are the spec's values (R28, R32), TABLE its constant contents (R34); ACC and the two
response ports have values the model names (log entries 3 and 4). -/
def State.reset : State where
  res := 0
  lastValid := false
  acc := accReset
  table := Memory.manufactured
  rspCode := .ok
  rspData := rspDataReset
  inputs := []

end Sys2Proof.Machine
end

