-- ==== Sys2Proof/Machine/Ops.lean ====
section
/-!
DEFINITION. The named operations over the state: register writes, the response that ends every command
(00_scope.md R10: it stands where other machines raise an exception, since the block has none,
60_exceptions.md R200), reset, and the input ports.
-/

namespace Sys2Proof.Machine

/-- The 3-bit value of a response code on the RSP_CODE port (R201). -/
def RspCode.bits : RspCode → BitVec 3
  | .ok => 0
  | .frameInvalid => 1
  | .uninit => 2
  | .resZero => 3
  | .reinit => 4
  | .illegal => 5

/-- `RES <- r` (43_control.md R161). -/
def State.setRes (s : State) (r : Resolution) : State := { s with res := r }

/-- `LAST_VALID <- v` (10_state.md R30). -/
def State.setLastValid (s : State) (v : Bool) : State := { s with lastValid := v }

/-- `ACC <- a` (R33). -/
def State.setAcc (s : State) (a : Byte) : State := { s with acc := a }

/-- `respond(code, data)`: end the command with this response on the output ports (R10, R201). -/
def State.respond (s : State) (code : RspCode) (data : Word64) : State :=
  { s with rspCode := code, rspData := data }

/-- `respond(code, 0)`: RSP_DATA is 0 for every code other than OK (R202). The one way an error is
reported (R200): nothing is saved, no mode changes and no handler runs (R207). -/
def State.respondError (s : State) (code : RspCode) : State := s.respond code 0

/-- The answer to a word that is no command: code ILLEGAL, and no state changes (R203,
30_encoding.md R67). -/
def State.answerIllegal (s : State) : State := s.respondError .illegal

/-- RESET (70_reset_and_hazards.md R240): the block goes to its reset state; TABLE keeps its contents
(R241), and what the host presents next is the host's. -/
def State.applyReset (s : State) : State :=
  { State.reset with table := s.table, inputs := s.inputs }

/-- What the input ports show for this step; an idle port when the host presents nothing (R67;
log entry 2). -/
def State.nextInput (s : State) : PortInput :=
  match s.inputs with
  | [] => .command idleWord
  | p :: _ => p

/-- This step's input has been taken; the host's next one is at the ports. -/
def State.takeInput (s : State) : State := { s with inputs := s.inputs.tail }

/-- The host presents `p` for the next step. -/
def State.present (s : State) (p : PortInput) : State := { s with inputs := p :: s.inputs }

end Sys2Proof.Machine
end

