-- ==== Sys2Proof/Machine/Checksum.lean ====
section
/-!
DEFINITION. The checksum engine (40_checksum.md R104 to R106) and the CHKSUM command (R107).
-/

namespace Sys2Proof.Machine

/-- One accumulator step: `TABLE[ACC ^ b]` (R105). -/
def accStep (t : Memory) (acc b : Byte) : Byte :=
  tableRead t (acc ^^^ b)

/-- The accumulator after a sequence of input bytes, from CRC_INIT (R104, R105). -/
def accAfter (t : Memory) (bytes : List Byte) : Byte :=
  bytes.foldl (accStep t) crcInit

/-- `checksum(x)`: the accumulator after the eight bytes of `x`, most significant first (R106). -/
def checksum (t : Memory) (x : Word64) : Byte :=
  accAfter t (bytesMsbFirst x)

/-- A checksum computation of the block: ACC holds its last value (R33, R106; log entry 5). -/
def State.runChecksum (s : State) (x : Word64) : State :=
  s.setAcc (checksum s.table x)

/-- CHKSUM (R107): the raw checksum of the operand. -/
def execChksum (x : Word64) (s : State) : Host.Outcome State Fault Refusal :=
  let s := s.runChecksum x
  .next (s.respond .ok (s.acc.setWidth 64))

end Sys2Proof.Machine
end

