-- ==== Sys2Proof/Machine/Flags.lean ====
section
/-!
DEFINITION. The two conditions of an angle frame: the checksum match, which is the block's one flag
(10_state.md R24, R29), and the frame's status bit, which is no flag (R24).
-/

namespace Sys2Proof.Machine

/-- `valid`: the inverted checksum of the frame equals frame byte 5 (41_angle.md R123). -/
def checksumMatches (sum : Byte) (f : Frame) : Bool :=
  (sum ^^^ checkInvert) == f.b5

/-- `status`: bit 1 of frame byte 3 (R124). -/
def statusBit (f : Frame) : Bool :=
  (f.b3 &&& statusMask) != 0

end Sys2Proof.Machine
end

