-- ==== Sys2Proof/Machine/Float.lean ====
section
/-!
DEFINITION. The binary32 primitives of 00_scope.md R11: `f32`, `fmul32` and `fdiv32`, rounding to nearest
with ties to even. PRESUMED from IEEE 754, as the spec itself marks it ("from general knowledge, not in
source", R11 and 93_implementation_defined.md K5); log entry 6.

A finite number is a whole number of units of 2^-149, the smallest subnormal. Products and quotients are
formed exactly as fractions of natural numbers and rounded once.
-/

namespace Sys2Proof.Machine

/-- The sign bit: true for a negative number. -/
def f32Sign (a : F32) : Bool := a.msb

/-- The biased exponent field. -/
def f32Exp (a : F32) : Nat := (a.extractLsb' 23 8).toNat

/-- The fraction field. -/
def f32Frac (a : F32) : Nat := (a.extractLsb' 0 23).toNat

/-- Not a number. -/
def f32IsNaN (a : F32) : Bool := f32Exp a == 255 && f32Frac a != 0

/-- An infinity of either sign. -/
def f32IsInf (a : F32) : Bool := f32Exp a == 255 && f32Frac a == 0

/-- A zero of either sign. -/
def f32IsZero (a : F32) : Bool := f32Exp a == 0 && f32Frac a == 0

/-- A finite number. -/
def f32IsFinite (a : F32) : Bool := f32Exp a != 255

/-- The magnitude of a finite number in units of 2^-149. -/
def f32Units (a : F32) : Nat :=
  if f32Exp a = 0 then f32Frac a else (2 ^ 23 + f32Frac a) * 2 ^ (f32Exp a - 1)

/-- The 31 magnitude bits of an infinity. -/
def infMagnitude : Nat := 255 * 2 ^ 23

/-- `n / d` rounded to the nearest whole number, ties to even, for `d > 0`. -/
def rneDiv (n d : Nat) : Nat :=
  if 2 * (n % d) < d then n / d
  else if d < 2 * (n % d) then n / d + 1
  else n / d + n / d % 2

/-- The magnitude bits of the binary32 number nearest to `n / d` units, ties to even; an infinity where
the rounded magnitude exceeds the largest finite number. The unit in the last place of the result is
2^k units; a significand that rounds up to 2^24 carries into the exponent field. -/
def roundMagnitude (n d : Nat) : Nat :=
  let k := (n / d).log2 - 23
  min (k * 2 ^ 23 + rneDiv n (d * 2 ^ k)) infMagnitude

/-- An encoding from its sign and its 31 magnitude bits. -/
def f32Pack (sign : Bool) (magnitude : Nat) : F32 :=
  BitVec.ofBool sign ++ BitVec.ofNat 31 magnitude

/-- The quiet NaN an operation on `a` and `b` delivers: the exponent field all ones and the quiet bit 1;
its sign and its payload are free values (log entry 7). -/
def quietNaN (a b : F32) : F32 :=
  Config.nanSign a b ++ 0x1FF#9 ++ Config.nanPayload a b

/-- `f32(n)`: the binary32 number nearest to the natural number `n` (R11). -/
def f32 (n : Nat) : F32 :=
  f32Pack false (roundMagnitude (n * 2 ^ 149) 1)

/-- `fmul32(a, b)` (R11). -/
def fmul32 (a b : F32) : F32 :=
  let sign := f32Sign a ^^ f32Sign b
  if f32IsNaN a || f32IsNaN b then quietNaN a b
  else if f32IsInf a || f32IsInf b then
    if f32IsZero a || f32IsZero b then quietNaN a b else f32Pack sign infMagnitude
  else f32Pack sign (roundMagnitude (f32Units a * f32Units b) (2 ^ 149))

/-- `fdiv32(a, b)` (R11). -/
def fdiv32 (a b : F32) : F32 :=
  let sign := f32Sign a ^^ f32Sign b
  if f32IsNaN a || f32IsNaN b then quietNaN a b
  else if f32IsInf a then
    if f32IsInf b then quietNaN a b else f32Pack sign infMagnitude
  else if f32IsInf b then f32Pack sign 0
  else if f32IsZero b then
    if f32IsZero a then quietNaN a b else f32Pack sign infMagnitude
  else f32Pack sign (roundMagnitude (f32Units a * 2 ^ 149) (f32Units b))

end Sys2Proof.Machine
end

