-- ==== Sys2Proof/Machine/Angle.lean ====
section
/-!
DEFINITION. The angle converter and the commands DECANG and CONVERT (41_angle.md).
-/

namespace Sys2Proof.Machine

/-- `angle32(P, R)`: multiply first, then divide (R128). -/
def angle32 (p : Position) (r : Resolution) : F32 :=
  fdiv32 (fmul32 (f32 p.toNat) deg360) (f32 r.toNat)

/-- RSP_DATA of a decoded position: `zext_64(P ++ bits32(a))`, P in [49:32], the angle in [31:0]
(R130, R135). -/
def angleData (p : Position) (r : Resolution) : Word64 :=
  (p ++ angle32 p r).setWidth 64

/-- The part DECANG and CONVERT share: UNINIT while RES is 0, else the position and its angle. No angle
is computed for RES = 0 (R128, R130, R135). -/
def State.respondAngle (s : State) (p : Position) : State :=
  if s.res = 0 then s.respondError .uninit else s.respond .ok (angleData p s.res)

/-- DECANG (R130): checksum, flag, frame decision, resolution check, conversion, in that order (R205). -/
def execDecang (f : Frame) (s : State) : Host.Outcome State Fault Refusal :=
  let s := s.runChecksum (packed f)
  let valid := checksumMatches s.acc f
  let s := s.setLastValid valid
  if valid && statusBit f then .next (s.respondAngle (position f))
  else .next (s.respondError .frameInvalid)

/-- CONVERT (R135). -/
def execConvert (p : Position) (s : State) : Host.Outcome State Fault Refusal :=
  .next (s.respondAngle p)

end Sys2Proof.Machine
end

