-- ==== Sys2Proof/Machine/Control.lean ====
section
/-!
DEFINITION. The commands INIT and RDVALID (43_control.md).
-/

namespace Sys2Proof.Machine

/-- RDVALID (R165): the flag in RSP_DATA[0]. -/
def execRdvalid (s : State) : Host.Outcome State Fault Refusal :=
  .next (s.respond .ok ((BitVec.ofBool s.lastValid).setWidth 64))

/-- INIT (R161): RES_ZERO before REINIT (60_exceptions.md R205); RES is written only on OK. -/
def execInit (r : Resolution) (s : State) : Host.Outcome State Fault Refusal :=
  if r = 0 then .next (s.respondError .resZero)
  else if s.res ≠ 0 then .next (s.respondError .reinit)
  else .next ((s.setRes r).respond .ok 0)

end Sys2Proof.Machine
end

