-- ==== Sys2Proof/Machine/Multiturn.lean ====
section
/-!
DEFINITION. The DECMT command (42_multiturn.md).
-/

namespace Sys2Proof.Machine

/-- DECMT (R151): the multiturn counter, with no validation (R152) and no state read (R153). -/
def execDecmt (f : Frame) (s : State) : Host.Outcome State Fault Refusal :=
  .next (s.respond .ok ((multiturn f).setWidth 64))

end Sys2Proof.Machine
end

