-- ==== Sys2Proof/Machine/Dispatch.lean ====
section
/-!
DEFINITION. The dispatcher: one arm for each command of 30_encoding.md R65.
-/

namespace Sys2Proof.Machine

def exec (i : Instr) (s : State) : Host.Outcome State Fault Refusal :=
  match i with
  | .chksum x => Sys2Proof.Machine.execChksum x s
  | .decang f => Sys2Proof.Machine.execDecang f s
  | .convert p => Sys2Proof.Machine.execConvert p s
  | .decmt f => Sys2Proof.Machine.execDecmt f s
  | .rdvalid => Sys2Proof.Machine.execRdvalid s
  | .init r => Sys2Proof.Machine.execInit r s

end Sys2Proof.Machine
end

