-- ==== Sys2Proof/Machine/Step.lean ====
section
/-!
DEFINITION. One step of the block (00_scope.md R12): it takes one input at its ports, a command word or a
reset, and answers. The block fetches no instructions (10_state.md R22): the host supplies each command.
-/

namespace Sys2Proof.Machine

/-- One step: take this step's input; reset the block, run the command, or answer ILLEGAL. -/
def step (s : State) : Host.Outcome State Fault Refusal :=
  match s.nextInput with
  | .reset => .next s.takeInput.applyReset
  | .command w =>
    match decode w with
    | .ok i => exec i s.takeInput
    | .error _ => .next s.takeInput.answerIllegal

/-- The host presents the command word whose bits are `w` for the next step (log entry 1). -/
def State.withFetchWord (s : State) (nbits w : Nat) : State :=
  s.present (.command (tableWord nbits w))

end Sys2Proof.Machine
end

