-- ==== Sys2Proof/Machine/Assembler.lean ====
section
/-!
DEFINITION. The assembler syntax of 30_encoding.md R70 and the pseudo-instruction CRC40 of R71, and the
hexadecimal spelling `OP:ARG` of a command word (R70). Text is a list of characters.
-/

namespace Sys2Proof.Machine

/-! Commands from their operands. -/

/-- CRC40 b0 b1 b2 b3 b4 expands to CHKSUM of the five bytes (R71). -/
def crc40 (b0 b1 b2 b3 b4 : Byte) : Instr :=
  .chksum (pack40 b0 b1 b2 b3 b4)

/-- A frame from six numbers in receive order. -/
def frameOfBytes : List Nat → Option Frame
  | [b0, b1, b2, b3, b4, b5] =>
    some ⟨.ofNat 8 b0, .ofNat 8 b1, .ofNat 8 b2, .ofNat 8 b3, .ofNat 8 b4, .ofNat 8 b5⟩
  | _ => none

/-- The command of a line, its operands not yet checked against their ranges. -/
def instrOfSource : Source → Option Instr
  | .chksum x => some (.chksum (.ofNat 64 x))
  | .decang bytes => (frameOfBytes bytes).map .decang
  | .decangWord f => some (.decang (.ofWord (.ofNat 48 f)))
  | .convert p => some (.convert (.ofNat 18 p))
  | .decmt bytes => (frameOfBytes bytes).map .decmt
  | .decmtWord f => some (.decmt (.ofWord (.ofNat 48 f)))
  | .rdvalid => some .rdvalid
  | .init r => some (.init (.ofNat 32 r))
  | .crc40 [b0, b1, b2, b3, b4] =>
    some (crc40 (.ofNat 8 b0) (.ofNat 8 b1) (.ofNat 8 b2) (.ofNat 8 b3) (.ofNat 8 b4))
  | .crc40 _ => none

/-- The command of a line; none is an assembly error, an operand out of its range (R70). -/
def assemble (l : Source) : Option Instr :=
  if l.wellFormed then instrOfSource l else none

/-! Lines of text. -/

/-- The value of a digit character; letters of either case (R70 does not say; log entry 8). -/
def digitValue (c : Char) : Option Nat :=
  if '0' ≤ c && c ≤ '9' then some (c.toNat - '0'.toNat)
  else if 'A' ≤ c && c ≤ 'F' then some (c.toNat - 'A'.toNat + 10)
  else if 'a' ≤ c && c ≤ 'f' then some (c.toNat - 'a'.toNat + 10)
  else none

/-- The number that a list of digits of a base continues from `n`. -/
def readDigits (base : Nat) : Nat → List Char → Option Nat
  | n, [] => some n
  | n, c :: cs =>
    match digitValue c with
    | some d => if d < base then readDigits base (n * base + d) cs else none
    | none => none

/-- A number: hexadecimal with the prefix 0x, else decimal (R70). -/
def readNumber : List Char → Option Nat
  | [] => none
  | ['0', 'x'] => none
  | '0' :: 'x' :: cs => readDigits 16 0 cs
  | cs => readDigits 10 0 cs

/-- A frame byte: two hexadecimal digits (R70). -/
def readByte (cs : List Char) : Option Nat :=
  if cs.length = 2 then readDigits 16 0 cs else none

/-- A frame as one number must carry the 0x prefix (R70). -/
def readFrameNumber : List Char → Option Nat
  | '0' :: 'x' :: cs => readNumber ('0' :: 'x' :: cs)
  | _ => none

/-- The line whose words these are. -/
def readWords : List (List Char) → Option Source
  | [] => none
  | m :: ops =>
    if m = "CHKSUM".toList then
      match ops with
      | [x] => (readNumber x).map .chksum
      | _ => none
    else if m = "DECANG".toList then
      match ops with
      | [f] => (readFrameNumber f).map .decangWord
      | _ => (ops.mapM readByte).map .decang
    else if m = "CONVERT".toList then
      match ops with
      | [p] => (readNumber p).map .convert
      | _ => none
    else if m = "DECMT".toList then
      match ops with
      | [f] => (readFrameNumber f).map .decmtWord
      | _ => (ops.mapM readByte).map .decmt
    else if m = "RDVALID".toList then
      match ops with
      | [] => some .rdvalid
      | _ => none
    else if m = "INIT".toList then
      match ops with
      | [r] => (readNumber r).map .init
      | _ => none
    else if m = "CRC40".toList then (ops.mapM readByte).map .crc40
    else none

/-- The words of a line: what stands before a `;`, split at blanks (R70). -/
def lineWords (line : List Char) : List (List Char) :=
  (line.takeWhile (· ≠ ';') |>.splitOnP (fun c => c = ' ' || c = '\t')).filter (· ≠ [])

/-- What one line of text stands for. -/
inductive LineMeaning where
  /-- A blank line, or only a comment. -/
  | nothing
  /-- A command. -/
  | command (i : Instr)
  /-- An assembly error (R70). -/
  | error
  deriving DecidableEq, Repr

/-- Assemble one line of text (R70). -/
def assembleLine (line : List Char) : LineMeaning :=
  match lineWords line with
  | [] => .nothing
  | words =>
    match (readWords words).bind assemble with
    | some i => .command i
    | none => .error

/-! The spelling `OP:ARG`, 2 and 16 hexadecimal digits. -/

/-- The hexadecimal digit of a number below 16. -/
def hexDigit (d : Nat) : Char :=
  "0123456789ABCDEF".toList.getD d '0'

/-- The `n` low hexadecimal digits of a number, most significant first. -/
def hexDigits : Nat → Nat → List Char
  | 0, _ => []
  | n + 1, v => hexDigits n (v / 16) ++ [hexDigit (v % 16)]

/-- The spelling of a command word (R70). -/
def spell (w : CmdWord) : List Char :=
  hexDigits 2 (opField w).toNat ++ ':' :: hexDigits 16 (argField w).toNat

/-- The command word that a spelling stands for. -/
def unspell (cs : List Char) : Option CmdWord :=
  let op := cs.take 2
  let rest := cs.drop 2
  if cs.length = 19 && rest.head? == some ':' then
    match readDigits 16 0 op, readDigits 16 0 rest.tail with
    | some o, some a => some (BitVec.ofNat 8 o ++ BitVec.ofNat 64 a)
    | _, _ => none
  else none

end Sys2Proof.Machine
end

