-- ==== Sys2Proof/Machine/Instances.lean ====
section
/-!
DEFINITION. Several decoder blocks side by side (10_state.md R36, 60_exceptions.md R212): each has its own
registers and its own command port, and they share nothing but the constant contents of TABLE.
-/

namespace Sys2Proof.Machine

/-- One step of block `k` among `n` blocks. -/
def stepInstance {n : Nat} (k : Fin n) (blocks : Vector State n) :
    Host.Outcome (Vector State n) Fault Refusal :=
  match step blocks[k] with
  | .next s => .next (blocks.set k s)
  | .fault r => .fault r
  | .refused r => .refused r

end Sys2Proof.Machine
end

