-- ==== Sys2Proof/Safety.lean ====
section
/-!
DEFINITION. What counts as a safe state and a safe step, in the terms the statements use.
-/

namespace Sys2Proof.Machine

/-- TABLE holds its manufactured contents (10_state.md R34). -/
def State.romIntact (s : State) : Bool := s.table == Memory.manufactured

/-- RSP_DATA is 0 for every response code other than OK (60_exceptions.md R202). -/
def State.responseCanonical (s : State) : Bool := s.rspCode == .ok || s.rspData == 0

/-- The bits of RSP_DATA above [49:0] are 0 in every layout of R202 but CHKSUM, DECMT and RDVALID, whose
layouts are narrower still; so they are 0 after every command. -/
def State.responseInLayout (s : State) : Bool := s.rspData.extractLsb' 50 14 == 0

/-- The invariant of the block: the ROM is intact and in canonical form, and the response port obeys
R202. -/
def State.Inv (s : State) : Prop :=
  s.romIntact = true ∧ Memory.wf s.table = true ∧ s.responseCanonical = true ∧
    s.responseInLayout = true

/-- Two states that differ at most in ACC: what a host can tell apart, it can tell apart in neither
(10_state.md R33). -/
def State.sameButAcc (s t : State) : Prop := s.setAcc t.acc = t

/-- An outcome that is a next state (00_scope.md R12: every step completes). -/
def isNext (o : Host.Outcome State Fault Refusal) : Bool :=
  match o with
  | .next _ => true
  | _ => false

end Sys2Proof.Machine
end

