-- ==== Sys2Proof/Certificates/Slice0/Obligations.lean ====
section
/-!
DEFINITION. The statements for the provers. Each docstring names the rule of the spec it formalises. The
right-hand sides are written from the rules (bit fields, masks, the table fold) wherever the model has a
name of its own for the same thing, so that a slip in a model definition makes a statement false.
-/

open Sys2Proof Sys2Proof.Machine

namespace Sys2Proof.Claims

/-! ## Terms the statements share -/

/-- The checksum of the five bytes b0 to b4 by the table of `s`, written as the fold of 40_checksum.md R106
over the eight bytes of the packed word of 41_angle.md R122. -/
def sum5 (t : Memory) (b0 b1 b2 b3 b4 : Byte) : Byte :=
  [0, 0, 0, b0, b1, b2, b3, b4].foldl (fun acc b => tableRead t (acc ^^^ b)) 0

/-- `valid` of R123 for a frame: the inverted checksum of bytes 0 to 4 equals byte 5. -/
abbrev frameValid (t : Memory) (f : Frame) : Prop :=
  ~~~(sum5 t f.b0 f.b1 f.b2 f.b3 f.b4) = f.b5

/-- The position of a frame as R126 writes it. -/
def framePosition (f : Frame) : Position := (f.b2 ++ f.b3 ++ f.b4).extractLsb' 6 18

/-- The angle of R128. -/
def angleOf (p : Position) (r : Resolution) : F32 :=
  fdiv32 (fmul32 (f32 p.toNat) 0x43B40000) (f32 r.toNat)

/-- `w` is in the row of R66 with this match and mask. -/
abbrev inRow (pattern mask w : CmdWord) : Prop := w &&& mask = pattern

/-- `w` is a legal command word (30_encoding.md R66). -/
abbrev legalWord (w : CmdWord) : Prop :=
  inRow 0x010000000000000000 0xFF0000000000000000 w ∨
  inRow 0x020000000000000000 0xFFFFFF000000000000 w ∨
  inRow 0x030000000000000000 0xFFFFFFFFFFFFFC0000 w ∨
  inRow 0x040000000000000000 0xFFFFFF000000000000 w ∨
  inRow 0x050000000000000000 0xFFFFFFFFFFFFFFFFFF w ∨
  inRow 0x060000000000000000 0xFFFFFFFFFF00000000 w

/-- `s` after this step's input is taken and `respond(code, data)` has ended the command. -/
def answered (s : State) (code : RspCode) (data : Word64) : State :=
  { s with inputs := s.inputs.tail, rspCode := code, rspData := data }

/-- What an input does to the history of LAST_VALID: a reset, an accepted DECANG with its frame, or
nothing (10_state.md R30, R32). -/
def flagEvent : PortInput → Option (Option Frame)
  | .reset => some none
  | .command w =>
    if w &&& 0xFFFFFF000000000000 = 0x020000000000000000 then
      some (some ⟨w.extractLsb' 40 8, w.extractLsb' 32 8, w.extractLsb' 24 8, w.extractLsb' 16 8,
        w.extractLsb' 8 8, w.extractLsb' 0 8⟩)
    else none

/-- The operand of an INIT word that is not 0. -/
def nonzeroInit : PortInput → Option Resolution
  | .reset => none
  | .command w =>
    if w &&& 0xFFFFFFFFFF00000000 = 0x060000000000000000 ∧ w.extractLsb' 0 32 ≠ 0 then
      some (w.extractLsb' 0 32)
    else none

/-- `r` is a binary32 number nearest to the fraction `num / den` of units of 2^-149, and where another
finite number is as near, `r` is the one whose last significand bit is 0. -/
def nearestEven (num den : Nat) (r : F32) : Prop :=
  ∀ c : F32, f32IsFinite c = true →
    ((f32Units r * den : Int) - num).natAbs ≤ ((f32Units c * den : Int) - num).natAbs ∧
    (((f32Units r * den : Int) - num).natAbs = ((f32Units c * den : Int) - num).natAbs →
      f32Units c = f32Units r ∨ r.getLsbD 0 = false)

/-- The polynomial over the two-element field whose coefficient of z^i is bit i. -/
noncomputable def toPoly {n : Nat} (v : BitVec n) : Polynomial (ZMod 2) :=
  ∑ i ∈ Finset.range n, if v.getLsbD i then Polynomial.X ^ i else 0

/-- The generator `g(z) = z^8 + z^7 + z^4 + z^2 + z + 1` (40_checksum.md R101). -/
noncomputable def generator : Polynomial (ZMod 2) :=
  Polynomial.X ^ 8 + Polynomial.X ^ 7 + Polynomial.X ^ 4 + Polynomial.X ^ 2 + Polynomial.X + 1

/-- The bitwise MSB-first loop of R111 over one byte: `ACC ^= b`, then eight times
`ACC = ACC[7] ? (ACC << 1) ^ 0x97 : ACC << 1`. -/
def bitwiseByte (acc b : Byte) : Byte :=
  (fun a : Byte => if a.getLsbD 7 then (a <<< 1) ^^^ 0x97 else a <<< 1)^[8] (acc ^^^ b)

end Sys2Proof.Claims

open Sys2Proof.Claims

/-! ## Reset, ports and the step -/

/-- 10_state.md R28 and R32 (R32 by the spec's decision D10). -/
def Obligations.ResetLeavesResAndFlagZero : Prop :=
  State.reset.res = 0 ∧ State.reset.lastValid = false

/-- 70_reset_and_hazards.md R240 and R241: RESET puts RES and LAST_VALID to 0 and leaves TABLE as it is,
and no command returns a set RES to 0. The value of ACC after reset is left open by R241, and nothing is
said of it here. -/
def Obligations.ResetRestoresAndAloneClearsRes : Prop :=
  (∀ s : State, s.nextInput = .reset →
    ∃ t, step s = .next t ∧ t.res = 0 ∧ t.lastValid = false ∧ t.table = s.table ∧
      t.inputs = s.inputs.tail) ∧
  (∀ (s t : State) (w : CmdWord), s.nextInput = .command w → s.res ≠ 0 → step s = .next t →
    t.res ≠ 0)

/-- The step is the decoded command: it takes the input and runs `exec`, and nothing else. The second
clause says the same of a word the host presents. The list of inputs is the model's (log entry 1). -/
def Obligations.StepRunsTheDecodedCommand : Prop :=
  (∀ (s : State) (w : CmdWord) (i : Instr), s.nextInput = .command w → decode w = .ok i →
    i.wellFormed = true → step s = exec i { s with inputs := s.inputs.tail }) ∧
  (∀ (s : State) (nbits w : Nat) (i : Instr), decodeTableWord nbits w = some i →
    step (s.withFetchWord nbits w) = exec i s)

/-- The model's choice for a step to which the host presents nothing (log entry 2): the port reads as the
all-zero word, which 30_encoding.md R67 makes illegal. -/
def Obligations.IdlePortIsAnsweredIllegal : Prop :=
  ∀ s : State, s.inputs = [] → step s = .next { s with rspCode := .illegal, rspData := 0 }

/-- 30_encoding.md R67: a word that is in no row of R66 is answered ILLEGAL with data 0 and changes no
state; such words are those of the two cases R67 lists. -/
def Obligations.WordOfNoRowIsAnsweredIllegal : Prop :=
  (∀ (s : State) (w : CmdWord), s.nextInput = .command w → ¬ legalWord w →
    step s = .next (answered s .illegal 0)) ∧
  (∀ (op : BitVec 8) (arg : Word64), ¬ legalWord (op ++ arg) ↔
    op = 0x00 ∨ 0x07 ≤ op.toNat ∨
    ((op = 0x02 ∨ op = 0x04) ∧ arg.extractLsb' 48 16 ≠ 0) ∨
    (op = 0x03 ∧ arg.extractLsb' 18 46 ≠ 0) ∨
    (op = 0x05 ∧ arg ≠ 0) ∨
    (op = 0x06 ∧ arg.extractLsb' 32 32 ≠ 0))

/-- 00_scope.md R12 and 70_reset_and_hazards.md R248: every command completes, so every run goes on. -/
def Obligations.EveryRunCompletes : Prop :=
  ∀ (k : Nat) (s : State), ∃ t : State, Sys2Proof.core.run k s = .next t

/-! ## Encoding -/

/-- "The legal words of each command, as match and mask over the 72-bit CMD" (30_encoding.md R66, which the
spec derives from R61 and R65): a word is a command exactly when it is in that command's row, and no word is in
two rows. -/
def Obligations.DecodeFollowsMatchAndMask : Prop :=
  ∀ w : CmdWord,
    ((∃ x, decode w = .ok (.chksum x)) ↔ inRow 0x010000000000000000 0xFF0000000000000000 w) ∧
    ((∃ f, decode w = .ok (.decang f)) ↔ inRow 0x020000000000000000 0xFFFFFF000000000000 w) ∧
    ((∃ p, decode w = .ok (.convert p)) ↔ inRow 0x030000000000000000 0xFFFFFFFFFFFFFC0000 w) ∧
    ((∃ f, decode w = .ok (.decmt f)) ↔ inRow 0x040000000000000000 0xFFFFFF000000000000 w) ∧
    (decode w = .ok .rdvalid ↔ inRow 0x050000000000000000 0xFFFFFFFFFFFFFFFFFF w) ∧
    ((∃ r, decode w = .ok (.init r)) ↔ inRow 0x060000000000000000 0xFFFFFFFFFF00000000 w)

/-- 30_encoding.md R61, R62 and R63: the operand of each command is its ARG bits as they stand, and frame
byte k is `ARG[47-8k : 40-8k]`. -/
def Obligations.OperandsAreTheArgBits : Prop :=
  ∀ arg : Word64,
    decode (0x01#8 ++ arg) = .ok (.chksum arg) ∧
    (arg.extractLsb' 48 16 = 0 →
      decode (0x02#8 ++ arg) = .ok (.decang ⟨arg.extractLsb' 40 8, arg.extractLsb' 32 8,
        arg.extractLsb' 24 8, arg.extractLsb' 16 8, arg.extractLsb' 8 8, arg.extractLsb' 0 8⟩) ∧
      decode (0x04#8 ++ arg) = .ok (.decmt ⟨arg.extractLsb' 40 8, arg.extractLsb' 32 8,
        arg.extractLsb' 24 8, arg.extractLsb' 16 8, arg.extractLsb' 8 8, arg.extractLsb' 0 8⟩)) ∧
    (arg.extractLsb' 18 46 = 0 →
      decode (0x03#8 ++ arg) = .ok (.convert (arg.extractLsb' 0 18))) ∧
    (arg = 0 → decode (0x05#8 ++ arg) = .ok .rdvalid) ∧
    (arg.extractLsb' 32 32 = 0 →
      decode (0x06#8 ++ arg) = .ok (.init (arg.extractLsb' 0 32)))

/-- Decoding the word of a well-formed command gives the command back: no operand bit is dropped. -/
def Obligations.DecodeOfEncode : Prop :=
  ∀ i : Instr, i.wellFormed = true → decode (encode i) = .ok i

/-- A word has one meaning: a decoded command encodes to the word it was read from. -/
def Obligations.EncodeOfDecode : Prop :=
  ∀ (w : CmdWord) (i : Instr), decode w = .ok i → encode i = w

/-- One word of each command, written out from R60, R61 and R65. -/
def Obligations.SampleWordsDecode : Prop :=
  decode 0x010000001234567890 = .ok (.chksum 0x0000001234567890) ∧
  decode 0x02000012348002002C = .ok (.decang ⟨0x12, 0x34, 0x80, 0x02, 0x00, 0x2C⟩) ∧
  decode 0x030000000000010000 = .ok (.convert 65536) ∧
  decode 0x0400001234FFFFFFFF = .ok (.decmt ⟨0x12, 0x34, 0xFF, 0xFF, 0xFF, 0xFF⟩) ∧
  decode 0x050000000000000000 = .ok .rdvalid ∧
  decode 0x060000000000040000 = .ok (.init 262144)

/-! ## Checksum engine -/

/-- CHKSUM at the instruction (40_checksum.md R104 to R107): it answers OK with the fold over the eight bytes
of its operand, most significant first, and changes nothing but ACC. That ACC holds the fold after the command
is the model's reading (log entry 5). -/
def Obligations.ChksumAnswersTheFold : Prop :=
  ∀ (x : Word64) (s : State), ∃ c : Byte,
    c = [x.extractLsb' 56 8, x.extractLsb' 48 8, x.extractLsb' 40 8, x.extractLsb' 32 8,
      x.extractLsb' 24 8, x.extractLsb' 16 8, x.extractLsb' 8 8, x.extractLsb' 0 8].foldl
        (fun acc b => tableRead s.table (acc ^^^ b)) 0 ∧
    exec (.chksum x) s = .next { s with acc := c, rspCode := .ok, rspData := 0#56 ++ c }

/-- 40_checksum.md R106 and R107, whole, from the command port to the response port, with R107's example. ACC
is written; nothing is said of the value it has after the command (10_state.md R33). -/
def Obligations.ChksumWordFollowsItsRule : Prop :=
  (∀ (s : State) (x : Word64), s.nextInput = .command (0x01#8 ++ x) →
    ∃ c a : Byte,
      c = [x.extractLsb' 56 8, x.extractLsb' 48 8, x.extractLsb' 40 8, x.extractLsb' 32 8,
        x.extractLsb' 24 8, x.extractLsb' 16 8, x.extractLsb' 8 8, x.extractLsb' 0 8].foldl
          (fun acc b => tableRead s.table (acc ^^^ b)) 0 ∧
      step s = .next (answered { s with acc := a } .ok (0#56 ++ c))) ∧
  checksum Memory.manufactured 0x0000001234567890 = 0xCD

/-- "Each TABLE entry is the MSB-first (non-reflected) CRC step of its index, applied over 8 bits"
(40_checksum.md R103, which the spec supplies from general knowledge by its decision D4). -/
def Obligations.TableIsTheMsbFirstConstruction : Prop :=
  ∀ i : Byte, tableRead State.reset.table i =
    (fun t : Byte => if t.getLsbD 7 then (t <<< 1) ^^^ 0x97 else t <<< 1)^[8] i

/-- "Leading zero bytes do not change the result" (40_checksum.md R108 and R109, which the spec derives from
R102 and R106). -/
def Obligations.LeadingZeroBytesDoNotCount : Prop :=
  tableRead Memory.manufactured 0 = 0 ∧
  checksum Memory.manufactured 0 = 0 ∧
  ∀ v : BitVec 40, checksum Memory.manufactured (v.setWidth 64) =
    [v.extractLsb' 32 8, v.extractLsb' 24 8, v.extractLsb' 16 8, v.extractLsb' 8 8,
      v.extractLsb' 0 8].foldl (fun acc b => tableRead Memory.manufactured (acc ^^^ b)) 0

/-- "The checksum is linear over XOR" (40_checksum.md R110, which the spec derives from R103, R104 and
R106). -/
def Obligations.ChecksumIsXorLinear : Prop :=
  (∀ i j : Byte, tableRead Memory.manufactured (i ^^^ j) =
    tableRead Memory.manufactured i ^^^ tableRead Memory.manufactured j) ∧
  (∀ a b : Word64, checksum Memory.manufactured (a ^^^ b) =
    checksum Memory.manufactured a ^^^ checksum Memory.manufactured b)

/-- The checksum is `(x(z) * z^8) mod g(z)`, and equals the bitwise MSB-first loop (40_checksum.md R111, which
the spec derives from R103 and R106 and marks as general knowledge). -/
def Obligations.ChecksumIsThePolynomialRemainder : Prop :=
  ∀ x : Word64,
    toPoly (checksum Memory.manufactured x) = (toPoly x * Polynomial.X ^ 8) %ₘ generator ∧
    checksum Memory.manufactured x =
      [x.extractLsb' 56 8, x.extractLsb' 48 8, x.extractLsb' 40 8, x.extractLsb' 32 8,
        x.extractLsb' 24 8, x.extractLsb' 16 8, x.extractLsb' 8 8, x.extractLsb' 0 8].foldl
          bitwiseByte 0

/-- "Changing any one bit of x always changes checksum(x)" (40_checksum.md R112, which the spec derives from
R110 and R111): changing bit k of the input changes the checksum by `checksum(1 << k)`, which is
`z^(k+8) mod g(z)` and not 0. -/
def Obligations.EverySingleBitChangesTheChecksum : Prop :=
  ∀ (x : Word64) (k : Nat), k < 64 →
    checksum Memory.manufactured (x ^^^ (1#64 <<< k)) =
      checksum Memory.manufactured x ^^^ checksum Memory.manufactured (1#64 <<< k) ∧
    toPoly (checksum Memory.manufactured (1#64 <<< k)) = Polynomial.X ^ (k + 8) %ₘ generator ∧
    checksum Memory.manufactured (1#64 <<< k) ≠ 0

/-! ## Angle decode and conversion -/

/-- 41_angle.md R130, the passing frame: DECANG answers OK with the position and its angle, sets
LAST_VALID, and changes nothing else but ACC. That ACC holds the checksum after the command is the model's
reading (log entry 5). -/
def Obligations.DecangAnswersPositionAndAngle : Prop :=
  ∀ (f : Frame) (s : State), frameValid s.table f → f.b3.getLsbD 1 = true → s.res ≠ 0 →
    exec (.decang f) s = .next { s with
      acc := sum5 s.table f.b0 f.b1 f.b2 f.b3 f.b4
      lastValid := true
      rspCode := .ok
      rspData := 0#14 ++ framePosition f ++ angleOf (framePosition f) s.res }

/-- 41_angle.md R125: a frame whose checksum or status bit fails is answered FRAME_INVALID with data 0, no
position and no angle, whatever RES is; the two causes differ in LAST_VALID alone, which records the checksum
match. Nothing is said of the value ACC has after the command (10_state.md R33). -/
def Obligations.DecangRefusesAFailingFrame : Prop :=
  ∀ (f : Frame) (s : State), (¬ frameValid s.table f ∨ f.b3.getLsbD 1 = false) →
    ∃ t, exec (.decang f) s = .next t ∧
      t.rspCode = .frameInvalid ∧ t.rspData = 0 ∧ (t.lastValid = true ↔ frameValid s.table f) ∧
      t = { s with acc := t.acc, lastValid := t.lastValid, rspCode := .frameInvalid, rspData := 0 }

/-- 41_angle.md R130 with RES = 0: a passing frame is answered UNINIT with data 0 after LAST_VALID is
written. The value of ACC is the model's reading (log entry 5). -/
def Obligations.DecangWithUnsetResolutionIsUninit : Prop :=
  ∀ (f : Frame) (s : State), frameValid s.table f → f.b3.getLsbD 1 = true → s.res = 0 →
    exec (.decang f) s = .next { s with
      acc := sum5 s.table f.b0 f.b1 f.b2 f.b3 f.b4
      lastValid := true
      rspCode := .uninit
      rspData := 0 }

/-- 41_angle.md R130, whole, from the command port to the response port. ACC is written in every case but
ILLEGAL; nothing is said of the value it has after the command (10_state.md R33). -/
def Obligations.DecangWordFollowsItsRule : Prop :=
  ∀ (s : State) (arg : Word64), s.nextInput = .command (0x02#8 ++ arg) →
    ∃ (b0 b1 b2 b3 b4 b5 : Byte) (p : Position) (sum a : Byte),
      b0 = arg.extractLsb' 40 8 ∧ b1 = arg.extractLsb' 32 8 ∧ b2 = arg.extractLsb' 24 8 ∧
      b3 = arg.extractLsb' 16 8 ∧ b4 = arg.extractLsb' 8 8 ∧ b5 = arg.extractLsb' 0 8 ∧
      p = (b2 ++ b3 ++ b4).extractLsb' 6 18 ∧ sum = sum5 s.table b0 b1 b2 b3 b4 ∧
      step s = .next (
        if arg.extractLsb' 48 16 ≠ 0 then answered s .illegal 0
        else if sum ^^^ 0xFF ≠ b5 then
          answered { s with acc := a, lastValid := false } .frameInvalid 0
        else if b3.getLsbD 1 = false then
          answered { s with acc := a, lastValid := true } .frameInvalid 0
        else if s.res = 0 then answered { s with acc := a, lastValid := true } .uninit 0
        else answered { s with acc := a, lastValid := true } .ok
          (0#14 ++ p ++ angleOf p s.res))

/-- 41_angle.md R135 at the instruction: with RES set, CONVERT answers OK with the position and its angle
and changes nothing else. -/
def Obligations.ConvertAnswersPositionAndAngle : Prop :=
  ∀ (p : Position) (s : State), s.res ≠ 0 →
    exec (.convert p) s = .next { s with rspCode := .ok, rspData := 0#14 ++ p ++ angleOf p s.res }

/-- 41_angle.md R135, whole, from the command port to the response port. -/
def Obligations.ConvertWordFollowsItsRule : Prop :=
  ∀ (s : State) (arg : Word64), s.nextInput = .command (0x03#8 ++ arg) →
    step s = .next (
      if arg.extractLsb' 18 46 ≠ 0 then answered s .illegal 0
      else if s.res = 0 then answered s .uninit 0
      else answered s .ok
        (0#14 ++ arg.extractLsb' 0 18 ++ angleOf (arg.extractLsb' 0 18) s.res))

/-- 41_angle.md R126: bit by bit, the position of a frame, where it stands in an OK response. -/
def Obligations.DecodedPositionBits : Prop :=
  ∀ (f : Frame) (s t : State), exec (.decang f) s = .next t → t.rspCode = .ok →
    t.rspData.extractLsb' 42 8 = f.b2 ∧
    t.rspData.extractLsb' 34 8 = f.b3 ∧
    t.rspData.extractLsb' 32 2 = f.b4.extractLsb' 6 2

/-- "Every frame that passes rule R125 therefore has P[3] = 1, and DECANG never returns a position with
bit 3 clear" (41_angle.md R127, which the spec derives from R124 and R126). -/
def Obligations.DecodedPositionHasBitThreeSet : Prop :=
  ∀ (f : Frame) (s t : State), exec (.decang f) s = .next t → t.rspCode = .ok →
    (framePosition f).getLsbD 3 = true ∧ t.rspData.getLsbD 35 = true

/-- Where the conversion is exact (41_angle.md R129, which the spec derives from R128 and 00_scope.md R11).
`f32(P)`, `f32(P) * 360` and, for a resolution that is a power of two, the angle are exact; `f32(R)` is exact
exactly when R has at most 24 significant bits; and the one inexact example of the rule. -/
def Obligations.ExactStepsOfTheConversion : Prop :=
  (∀ p : Position, f32Units (f32 p.toNat) = p.toNat * 2 ^ 149) ∧
  (∀ p : Position, f32Units (fmul32 (f32 p.toNat) 0x43B40000) = p.toNat * 360 * 2 ^ 149) ∧
  (∀ r : Resolution, f32Units (f32 r.toNat) = r.toNat * 2 ^ 149 ↔
    ∃ m e : Nat, m < 2 ^ 24 ∧ r.toNat = m * 2 ^ e) ∧
  f32Units (f32 16777217) = 16777216 * 2 ^ 149 ∧
  (∀ (p : Position) (k : Nat), k ≤ 31 →
    f32Units (angleOf p (BitVec.ofNat 32 (2 ^ k))) * 2 ^ k = p.toNat * 360 * 2 ^ 149)

/-- "The result of angle32 is always a finite, non-negative binary32 number" (41_angle.md R131, which the spec
derives from R128 and R129): for every position and every set resolution the angle is a finite, non-negative
number; it is +0.0 for P = 0 and a normal number for every other P; and it is below 360 exactly when
P < R, so it is neither reduced nor clamped. -/
def Obligations.AngleIsFiniteAndBelow360WhenInRange : Prop :=
  ∀ (p : Position) (r : Resolution), r ≠ 0 →
    f32Sign (angleOf p r) = false ∧
    f32IsFinite (angleOf p r) = true ∧
    (p = 0 → angleOf p r = 0x00000000) ∧
    (p ≠ 0 → 1 ≤ f32Exp (angleOf p r)) ∧
    (f32Units (angleOf p r) < 360 * 2 ^ 149 ↔ p.toNat < r.toNat)

/-- The arithmetic of 00_scope.md R11, which the spec supplies from general knowledge by its decision D5
(log entry 6): the conversion of a resolution or a position, and every product and quotient of
finite numbers that is finite, is the nearest binary32 number, ties to even, with the sign of IEEE 754. -/
def Obligations.Binary32RoundsToNearestEven : Prop :=
  (∀ n : Nat, n < 2 ^ 32 →
    f32Sign (f32 n) = false ∧ f32IsFinite (f32 n) = true ∧ nearestEven (n * 2 ^ 149) 1 (f32 n)) ∧
  (∀ a b : F32, f32IsFinite a = true → f32IsFinite b = true → f32IsFinite (fmul32 a b) = true →
    f32Sign (fmul32 a b) = (f32Sign a ^^ f32Sign b) ∧
    nearestEven (f32Units a * f32Units b) (2 ^ 149) (fmul32 a b)) ∧
  (∀ a b : F32, f32IsFinite a = true → f32IsFinite b = true → f32IsZero b = false →
    f32IsFinite (fdiv32 a b) = true →
    f32Sign (fdiv32 a b) = (f32Sign a ^^ f32Sign b) ∧
    nearestEven (f32Units a * 2 ^ 149) (f32Units b) (fdiv32 a b))

/-- IEEE 754 on the operands that are no finite numbers, and on overflow, as log entry 6 presumes it. NaN
operands and the invalid operations, in either order, give a NaN, and nothing else does, whichever the free
values of log entry 7 are. An infinity times anything else, an infinity over a finite number, and a finite
nonzero number over a zero give an infinity; a finite number over an infinity gives a zero. A product or a
quotient of finite numbers overflows to an infinity exactly from the midpoint above the largest finite number,
`(2^25 - 1) * 2^252` units of 2^-149. Every result that is no NaN has the sign of IEEE 754. -/
def Obligations.Binary32SpecialOperands : Prop :=
  ∀ a b : F32,
    (f32IsNaN (fmul32 a b) = true ↔
      f32IsNaN a = true ∨ f32IsNaN b = true ∨ (f32IsInf a = true ∧ f32IsZero b = true) ∨
        (f32IsZero a = true ∧ f32IsInf b = true)) ∧
    (f32IsNaN (fdiv32 a b) = true ↔
      f32IsNaN a = true ∨ f32IsNaN b = true ∨ (f32IsInf a = true ∧ f32IsInf b = true) ∨
        (f32IsZero a = true ∧ f32IsZero b = true)) ∧
    (f32IsInf a = true → f32IsNaN b = false → f32IsZero b = false →
      f32IsInf (fmul32 a b) = true) ∧
    (f32IsNaN a = false → f32IsZero a = false → f32IsInf b = true →
      f32IsInf (fmul32 a b) = true) ∧
    (f32IsFinite a = true → f32IsFinite b = true →
      (f32IsInf (fmul32 a b) = true ↔
        (2 ^ 25 - 1) * 2 ^ 252 * 2 ^ 149 ≤ f32Units a * f32Units b)) ∧
    (f32IsInf a = true → f32IsFinite b = true → f32IsInf (fdiv32 a b) = true) ∧
    (f32IsFinite a = true → f32IsInf b = true → f32IsZero (fdiv32 a b) = true) ∧
    (f32IsFinite a = true → f32IsZero a = false → f32IsZero b = true →
      f32IsInf (fdiv32 a b) = true) ∧
    (f32IsFinite a = true → f32IsFinite b = true → f32IsZero b = false →
      (f32IsInf (fdiv32 a b) = true ↔
        (2 ^ 25 - 1) * 2 ^ 252 * f32Units b ≤ f32Units a * 2 ^ 149)) ∧
    (f32IsNaN (fmul32 a b) = false → f32Sign (fmul32 a b) = (f32Sign a ^^ f32Sign b)) ∧
    (f32IsNaN (fdiv32 a b) = false → f32Sign (fdiv32 a b) = (f32Sign a ^^ f32Sign b))

/-- "Round trip" (41_angle.md R132, which the spec derives from R123, R125 and R131): a frame whose status bit
is set and whose byte 5 is the inverted checksum decodes, with LAST_VALID = 1, and its angle is in [0, 360)
exactly when P < RES. -/
def Obligations.SynthesisedFrameDecodes : Prop :=
  ∀ (b0 b1 b2 b3 b4 : Byte) (s : State), b3.getLsbD 1 = true → s.res ≠ 0 →
    ∃ t, exec (.decang ⟨b0, b1, b2, b3, b4, ~~~(sum5 s.table b0 b1 b2 b3 b4)⟩) s = .next t ∧
      t.rspCode = .ok ∧ t.lastValid = true ∧
      ((f32Sign (t.rspData.extractLsb' 0 32) = false ∧
        f32Units (t.rspData.extractLsb' 0 32) < 360 * 2 ^ 149) ↔
        ((b2 ++ b3 ++ b4).extractLsb' 6 18).toNat < s.res.toNat)

/-- "Corruption" (41_angle.md R133, which the spec derives from R123 and 40_checksum.md R112): flip any one
of the 48 bits of a frame that passes, and DECANG answers FRAME_INVALID with LAST_VALID = 0. -/
def Obligations.SingleBitCorruptionIsDetected : Prop :=
  ∀ (f : Frame) (s : State) (k : Nat), s.romIntact = true →
    frameValid s.table f → f.b3.getLsbD 1 = true → k < 48 →
    ∃ t, exec (.decang (Frame.ofWord (f.word ^^^ (1#48 <<< k)))) s = .next t ∧
      t.rspCode = .frameInvalid ∧ t.lastValid = false

/-- "Status" (41_angle.md R134, which the spec derives from R125 and R133): clear the status bit of a frame
that passes. With byte 5 recomputed, DECANG answers FRAME_INVALID with LAST_VALID = 1; with byte 5 as it was,
with LAST_VALID = 0. -/
def Obligations.ClearedStatusBitFailsTheFrame : Prop :=
  ∀ (f : Frame) (s : State), s.romIntact = true → frameValid s.table f → f.b3.getLsbD 1 = true →
    (∃ t, exec (.decang { f with
          b3 := f.b3 &&& 0xFD
          b5 := ~~~(sum5 s.table f.b0 f.b1 f.b2 (f.b3 &&& 0xFD) f.b4) }) s = .next t ∧
        t.rspCode = .frameInvalid ∧ t.lastValid = true) ∧
    (∃ t, exec (.decang { f with b3 := f.b3 &&& 0xFD }) s = .next t ∧
        t.rspCode = .frameInvalid ∧ t.lastValid = false)

/-- "DECANG with RES = R returns the same angle bits as CONVERT P with RES = R" (41_angle.md R136, which the
spec derives from R130 and R135): whenever DECANG answers OK, CONVERT of the same position answers the same
data. -/
def Obligations.DecangAndConvertAgree : Prop :=
  ∀ (f : Frame) (s t : State), exec (.decang f) s = .next t → t.rspCode = .ok →
    ∃ t', exec (.convert (framePosition f)) s = .next t' ∧ t'.rspCode = .ok ∧
      t'.rspData = t.rspData

/-! ## Multiturn, INIT and RDVALID -/

/-- 42_multiturn.md R151 at the instruction, for every frame and every state: no validation (R152), no
resolution needed, nothing but the response written. -/
def Obligations.DecmtAnswersTheCounter : Prop :=
  ∀ (f : Frame) (s : State),
    exec (.decmt f) s = .next { s with rspCode := .ok, rspData := 0#48 ++ f.b0 ++ f.b1 }

/-- 42_multiturn.md R151, whole, from the command port to the response port. -/
def Obligations.DecmtWordFollowsItsRule : Prop :=
  ∀ (s : State) (arg : Word64), s.nextInput = .command (0x04#8 ++ arg) →
    step s = .next (
      if arg.extractLsb' 48 16 ≠ 0 then answered s .illegal 0
      else answered s .ok ((arg.extractLsb' 32 16).setWidth 64))

/-- "DECMT's result does not depend on B[2] to B[5] or on any state" (42_multiturn.md R153, which the spec
derives from R151): DECMT's response depends on bytes 0 and 1 alone, not on bytes 2 to 5 and not on
any state. -/
def Obligations.DecmtDependsOnTwoBytes : Prop :=
  ∀ (f g : Frame) (s s' : State), f.b0 = g.b0 → f.b1 = g.b1 →
    ∃ t t', exec (.decmt f) s = .next t ∧ exec (.decmt g) s' = .next t' ∧
      t.rspCode = t'.rspCode ∧ t.rspData = t'.rspData

/-- 43_control.md R161 at the instruction: INIT of a nonzero resolution on a block whose RES is 0 sets
RES, answers OK with data 0, and changes nothing else. -/
def Obligations.InitSetsTheResolution : Prop :=
  ∀ (r : Resolution) (s : State), r ≠ 0 → s.res = 0 →
    exec (.init r) s = .next { s with res := r, rspCode := .ok, rspData := 0 }

/-- 43_control.md R161, whole, from the command port to the response port. -/
def Obligations.InitWordFollowsItsRule : Prop :=
  ∀ (s : State) (arg : Word64), s.nextInput = .command (0x06#8 ++ arg) →
    step s = .next (
      if arg.extractLsb' 32 32 ≠ 0 then answered s .illegal 0
      else if arg.extractLsb' 0 32 = 0 then answered s .resZero 0
      else if s.res ≠ 0 then answered s .reinit 0
      else answered { s with res := arg.extractLsb' 0 32 } .ok 0)

/-- 43_control.md R165 at the instruction: RDVALID answers OK with the flag in bit 0 and changes
nothing. -/
def Obligations.RdvalidAnswersTheFlag : Prop :=
  ∀ s : State, exec .rdvalid s =
    .next { s with rspCode := .ok, rspData := if s.lastValid then 1 else 0 }

/-- 43_control.md R165, whole, from the command port to the response port. -/
def Obligations.RdvalidWordFollowsItsRule : Prop :=
  ∀ (s : State) (arg : Word64), s.nextInput = .command (0x05#8 ++ arg) →
    step s = .next (
      if arg ≠ 0 then answered s .illegal 0
      else answered s .ok (if s.lastValid then 1 else 0))

/-! ## Responses and what commands write -/

/-- 60_exceptions.md R201 and R205: the value of each code on the port, that 6 and 7 are never produced, and
for each error the commands that report it and when, an earlier error of R205's order first. What is left is
answered OK. -/
def Obligations.ResponseCodesAndTheirCommands : Prop :=
  RspCode.ok.bits = 0 ∧ RspCode.frameInvalid.bits = 1 ∧ RspCode.uninit.bits = 2 ∧
  RspCode.resZero.bits = 3 ∧ RspCode.reinit.bits = 4 ∧ RspCode.illegal.bits = 5 ∧
  (∀ (s t : State) (w : CmdWord), s.nextInput = .command w → step s = .next t →
    t.rspCode.bits ≠ 6 ∧ t.rspCode.bits ≠ 7 ∧
    (t.rspCode = .illegal ↔ ¬ legalWord w) ∧
    (t.rspCode = .frameInvalid ↔ ∃ f, decode w = .ok (.decang f) ∧
      (¬ frameValid s.table f ∨ f.b3.getLsbD 1 = false)) ∧
    (t.rspCode = .uninit ↔ s.res = 0 ∧
      ((∃ f, decode w = .ok (.decang f) ∧ frameValid s.table f ∧ f.b3.getLsbD 1 = true) ∨
        ∃ p, decode w = .ok (.convert p))) ∧
    (t.rspCode = .resZero ↔ decode w = .ok (.init 0)) ∧
    (t.rspCode = .reinit ↔ s.res ≠ 0 ∧ ∃ r, r ≠ 0 ∧ decode w = .ok (.init r)))

/-- 60_exceptions.md R202: RSP_DATA is 0 for every code other than OK, and each command's layout on OK. -/
def Obligations.ResponseDataLayout : Prop :=
  (∀ s t : State, step s = .next t → t.rspCode ≠ .ok → t.rspData = 0) ∧
  (∀ (i : Instr) (s t : State), exec i s = .next t → t.rspCode = .ok →
    match i with
    | .chksum x => t.rspData.extractLsb' 0 8 = checksum s.table x ∧ t.rspData.extractLsb' 8 56 = 0
    | .decang f => t.rspData.extractLsb' 0 32 = angleOf (framePosition f) s.res ∧
        t.rspData.extractLsb' 32 18 = framePosition f ∧ t.rspData.extractLsb' 50 14 = 0
    | .convert p => t.rspData.extractLsb' 0 32 = angleOf p s.res ∧
        t.rspData.extractLsb' 32 18 = p ∧ t.rspData.extractLsb' 50 14 = 0
    | .decmt f => t.rspData.extractLsb' 0 16 = f.b0 ++ f.b1 ∧ t.rspData.extractLsb' 16 48 = 0
    | .rdvalid => t.rspData.getLsbD 0 = s.lastValid ∧ t.rspData.extractLsb' 1 63 = 0
    | .init _ => t.rspData = 0)

/-- 60_exceptions.md R203: what each response other than OK does to the state. These are all the fields
of State but the response ports themselves, so no error leaves a sticky bit or anything a later command could be
blocked by. Nothing is said of the value ACC has after a DECANG (10_state.md R33). -/
def Obligations.ErrorResponsesChangeOnlyTheFlag : Prop :=
  ∀ (s t : State) (w : CmdWord), s.nextInput = .command w → step s = .next t → t.rspCode ≠ .ok →
    t.res = s.res ∧ t.table = s.table ∧ t.inputs = s.inputs.tail ∧
    (match decode w with
      | .ok (.decang f) => (t.lastValid = true ↔ frameValid s.table f)
      | _ => t.lastValid = s.lastValid ∧ t.acc = s.acc)

/-- 10_state.md R26, R30 and 20_memory.md R47: RES is written only by an INIT that answers OK, LAST_VALID
only by DECANG, ACC only by CHKSUM and DECANG, TABLE by none, and no command takes a host input. -/
def Obligations.CommandsWriteOnlyTheirRegisters : Prop :=
  ∀ (i : Instr) (s t : State), exec i s = .next t →
    (t.res ≠ s.res → s.res = 0 ∧ i = .init t.res ∧ t.rspCode = .ok) ∧
    (t.lastValid ≠ s.lastValid → ∃ f, i = .decang f) ∧
    (t.acc ≠ s.acc → (∃ x, i = .chksum x) ∨ ∃ f, i = .decang f) ∧
    t.table = s.table ∧ t.inputs = s.inputs

/-! ## Runs -/

/-- The reset state meets the invariant. What the response ports show there is the model's choice (log
entry 4). -/
def Obligations.InvariantHoldsAtReset : Prop := State.reset.Inv

/-- Every step keeps the invariant, from every state that meets it (10_state.md R34; 60_exceptions.md
R202). -/
def Obligations.EveryStepKeepsTheInvariant : Prop :=
  ∀ s t : State, s.Inv → step s = .next t → t.Inv

/-- "RES holds 0 from reset until the first successful INIT" (10_state.md R27, which the spec derives from R26
and 43_control.md R161): from a block whose RES is 0, and until the next reset, RES is 0 until the first INIT
with a nonzero operand and that operand from then on; a RES that is set stays as it is. -/
def Obligations.ResolutionIsWrittenOnce : Prop :=
  ∀ (ins : List PortInput) (s : State), s.inputs = ins → PortInput.reset ∉ ins →
    ∃ t : State, Sys2Proof.core.run ins.length s = .next t ∧ t.inputs = [] ∧
      (s.res = 0 → t.res = (ins.filterMap nonzeroInit).head?.getD 0) ∧
      (s.res ≠ 0 → t.res = s.res)

/-- 10_state.md R29, R30, R32 and 70_reset_and_hazards.md R245: after any sequence of inputs, LAST_VALID is
the checksum match of the most recent accepted DECANG since the last reset, whatever came between; 0 if a
reset came last; and what it was if neither came. -/
def Obligations.FlagTellsTheMostRecentAngleRead : Prop :=
  ∀ (ins : List PortInput) (s : State), s.inputs = ins →
    ∃ t : State, Sys2Proof.core.run ins.length s = .next t ∧
      match (ins.filterMap flagEvent).getLast? with
      | none => t.lastValid = s.lastValid
      | some none => t.lastValid = false
      | some (some f) => t.lastValid = true ↔ frameValid s.table f

/-- 10_state.md R31: RDVALID returns LAST_VALID in bit 0, and no other command's response or effect on any
other register depends on it. -/
def Obligations.OnlyRdvalidReadsTheFlag : Prop :=
  ∀ (i : Instr) (s : State) (v : Bool),
    ∃ t t' : State, exec i s = .next t ∧ exec i { s with lastValid := v } = .next t' ∧
      (i = .rdvalid → t'.rspData.getLsbD 0 = v) ∧
      (i ≠ .rdvalid → t' = { t with lastValid := t'.lastValid })

/-- ACC cannot be observed (10_state.md R33). Two runs that start from states that differ in ACC alone give,
step for step, states that differ in ACC alone: no response, register or table entry tells them apart. -/
def Obligations.AccumulatorCannotBeObserved : Prop :=
  ∀ (k : Nat) (s : State) (a : Byte),
    ∃ t t' : State, Sys2Proof.core.run k s = .next t ∧
      Sys2Proof.core.run k { s with acc := a } = .next t' ∧ t.sameButAcc t'

/-- 10_state.md R36: a step of one block changes no other block, and what it does depends on no other
block. That several blocks are a vector of states, each with its copy of the constant TABLE, is the model's
choice (log entry 12). -/
def Obligations.InstancesAreIndependent : Prop :=
  ∀ (n : Nat) (k : Fin n) (blocks blocks' : Vector State n), blocks[k] = blocks'[k] →
    ∃ after after' : Vector State n,
      stepInstance k blocks = .next after ∧ stepInstance k blocks' = .next after' ∧
      step blocks[k] = .next after[k] ∧ after[k] = after'[k] ∧
      ∀ j : Fin n, j ≠ k → after[j] = blocks[j]

/-! ## Assembler -/

/-- 30_encoding.md R71: CRC40 gives the checksum of five bytes as DECANG computes it before inversion. -/
def Obligations.Crc40IsDecangsChecksum : Prop :=
  ∀ (b0 b1 b2 b3 b4 b5 : Byte) (s : State),
    assemble (.crc40 [b0.toNat, b1.toNat, b2.toNat, b3.toNat, b4.toNat]) =
      some (.chksum (0#24 ++ b0 ++ b1 ++ b2 ++ b3 ++ b4)) ∧
    ∃ t t' : State,
      exec (.chksum (0#24 ++ b0 ++ b1 ++ b2 ++ b3 ++ b4)) s = .next t ∧
      exec (.decang ⟨b0, b1, b2, b3, b4, b5⟩) s = .next t' ∧
      (t'.lastValid = true ↔ ~~~(t.rspData.extractLsb' 0 8) = b5)

/-- 30_encoding.md R70: what each line of the syntax encodes, and that an operand out of its range is an
assembly error. -/
def Obligations.AssemblerEncodesEachLine : Prop :=
  (∀ x : Nat, (assemble (.chksum x)).map encode =
    if x < 2 ^ 64 then some (0x01#8 ++ BitVec.ofNat 64 x) else none) ∧
  (∀ f : Nat, (assemble (.decangWord f)).map encode =
    if f < 2 ^ 48 then some (0x02#8 ++ BitVec.ofNat 64 f) else none) ∧
  (∀ p : Nat, (assemble (.convert p)).map encode =
    if p < 2 ^ 18 then some (0x03#8 ++ BitVec.ofNat 64 p) else none) ∧
  (∀ f : Nat, (assemble (.decmtWord f)).map encode =
    if f < 2 ^ 48 then some (0x04#8 ++ BitVec.ofNat 64 f) else none) ∧
  (assemble .rdvalid).map encode = some (0x05#8 ++ 0#64) ∧
  (∀ r : Nat, (assemble (.init r)).map encode =
    if r < 2 ^ 32 then some (0x06#8 ++ BitVec.ofNat 64 r) else none) ∧
  (∀ b0 b1 b2 b3 b4 b5 : Nat,
    (assemble (.decang [b0, b1, b2, b3, b4, b5])).map encode =
      (if b0 < 256 ∧ b1 < 256 ∧ b2 < 256 ∧ b3 < 256 ∧ b4 < 256 ∧ b5 < 256 then
        some (0x02#8 ++ 0#16 ++ BitVec.ofNat 8 b0 ++ BitVec.ofNat 8 b1 ++ BitVec.ofNat 8 b2 ++
          BitVec.ofNat 8 b3 ++ BitVec.ofNat 8 b4 ++ BitVec.ofNat 8 b5)
      else none) ∧
    (assemble (.decmt [b0, b1, b2, b3, b4, b5])).map encode =
      (if b0 < 256 ∧ b1 < 256 ∧ b2 < 256 ∧ b3 < 256 ∧ b4 < 256 ∧ b5 < 256 then
        some (0x04#8 ++ 0#16 ++ BitVec.ofNat 8 b0 ++ BitVec.ofNat 8 b1 ++ BitVec.ofNat 8 b2 ++
          BitVec.ofNat 8 b3 ++ BitVec.ofNat 8 b4 ++ BitVec.ofNat 8 b5)
      else none))

/-- 30_encoding.md R70: the spelling `OP:ARG` of a word is 2 and 16 digits, and reads back as the word. -/
def Obligations.SpellingReadsBack : Prop :=
  ∀ w : CmdWord, (spell w).length = 19 ∧ unspell (spell w) = some w
end

