-- ==== Sys2Proof/Laws/Assembler.lean ====
section
/-!
SUPPORT. Laws of the assembler: a command's own line is in range and assembles to the command.
-/

namespace Sys2Proof.Machine

/-- The bytes of a frame are in range. -/
theorem bytesOk_frame (f : Frame) : bytesOk 6 f.bytes = true := by
  have h0 := f.b0.isLt
  have h1 := f.b1.isLt
  have h2 := f.b2.isLt
  have h3 := f.b3.isLt
  have h4 := f.b4.isLt
  have h5 := f.b5.isLt
  simp [bytesOk, Frame.bytes]
  omega

/-- Every command is well-formed: its operands have the widths of their fields (30_encoding.md R62). -/
theorem wellFormed_all (i : Instr) : i.wellFormed = true := by
  cases i with
  | chksum x => simpa [Instr.wellFormed, Instr.source, Source.wellFormed] using x.isLt
  | decang f => exact bytesOk_frame f
  | convert p => simpa [Instr.wellFormed, Instr.source, Source.wellFormed] using p.isLt
  | decmt f => exact bytesOk_frame f
  | rdvalid => rfl
  | init r => simpa [Instr.wellFormed, Instr.source, Source.wellFormed] using r.isLt

/-- An operand out of its range is an assembly error (R70). -/
theorem assemble_none {l : Source} (h : l.wellFormed = false) : assemble l = none := by
  simp [assemble, h]

/-- The line of a command assembles to the command. -/
theorem assemble_source (i : Instr) : assemble i.source = some i := by
  have h : i.source.wellFormed = true := wellFormed_all i
  unfold assemble
  rw [if_pos h]
  cases i <;> simp [Instr.source, instrOfSource, frameOfBytes, Frame.bytes]

end Sys2Proof.Machine
end

