-- ==== Sys2Proof/Laws/Decode.lean ====
section
/-!
SUPPORT. The fields of a command word, and what a decoded word must be.
-/

namespace Sys2Proof

@[simp] theorem opField_append (op : BitVec 8) (arg : Word64) : opField (op ++ arg) = op := by
  apply BitVec.eq_of_getLsbD_eq
  intro i hi
  simp only [opField, BitVec.getLsbD_extractLsb', BitVec.getLsbD_append]
  simp [hi]

@[simp] theorem argField_append (op : BitVec 8) (arg : Word64) : argField (op ++ arg) = arg := by
  apply BitVec.eq_of_getLsbD_eq
  intro i hi
  simp only [argField, BitVec.getLsbD_extractLsb', BitVec.getLsbD_append]
  simp [hi]

/-- A command word is its OP and its ARG (30_encoding.md R60). -/
theorem op_append_arg (w : CmdWord) : opField w ++ argField w = w := by
  apply BitVec.eq_of_getLsbD_eq
  intro i hi
  simp only [opField, argField, BitVec.getLsbD_extractLsb', BitVec.getLsbD_append]
  grind

/-- What a word that decodes to a command must be: its OP, its reserved ARG bits and its operand. -/
theorem decode_cases {w : CmdWord} {i : Instr} (h : decode w = .ok i) :
    (opField w = 0x01 ∧ i = .chksum (argField w)) ∨
    (opField w = 0x02 ∧ (argField w).extractLsb' 48 16 = 0 ∧
      i = .decang (.ofWord ((argField w).extractLsb' 0 48))) ∨
    (opField w = 0x03 ∧ (argField w).extractLsb' 18 46 = 0 ∧
      i = .convert ((argField w).extractLsb' 0 18)) ∨
    (opField w = 0x04 ∧ (argField w).extractLsb' 48 16 = 0 ∧
      i = .decmt (.ofWord ((argField w).extractLsb' 0 48))) ∨
    (opField w = 0x05 ∧ argField w = 0 ∧ i = .rdvalid) ∨
    (opField w = 0x06 ∧ (argField w).extractLsb' 32 32 = 0 ∧
      i = .init ((argField w).extractLsb' 0 32)) := by
  unfold decode at h
  simp only at h
  split at h <;> rename_i h1
  · simp_all
  split at h <;> rename_i h2
  · split at h <;> simp_all
  split at h <;> rename_i h3
  · split at h <;> simp_all
  split at h <;> rename_i h4
  · split at h <;> simp_all
  split at h <;> rename_i h5
  · split at h <;> simp_all
  split at h <;> rename_i h6
  · split at h <;> simp_all
  simp at h

/-- The bytes of a frame read back from its 48-bit operand (30_encoding.md R63). -/
@[simp] theorem Frame.ofWord_word (f : Frame) : Frame.ofWord f.word = f := by
  cases f
  simp only [Frame.ofWord, Frame.word, Frame.mk.injEq]
  refine ⟨?_, ?_, ?_, ?_, ?_, ?_⟩ <;>
    · apply BitVec.eq_of_getLsbD_eq
      intro i hi
      simp only [BitVec.getLsbD_extractLsb', BitVec.getLsbD_append]
      grind

/-- The 48-bit operand reads back from the bytes of its frame (R63). -/
@[simp] theorem Frame.word_ofWord (w : BitVec 48) : (Frame.ofWord w).word = w := by
  apply BitVec.eq_of_getLsbD_eq
  intro i hi
  simp only [Frame.ofWord, Frame.word, BitVec.getLsbD_extractLsb', BitVec.getLsbD_append]
  grind

/-- An operand that fits below bit `n` leaves the bits from `n` up 0 (R61). -/
theorem extract_high_setWidth {n : Nat} (v : BitVec n) :
    (v.setWidth 64).extractLsb' n (64 - n) = 0 := by
  apply BitVec.eq_of_getLsbD_eq
  intro i hi
  simp [BitVec.getLsbD_extractLsb']

/-- An operand reads back from the low bits of its ARG (R62). -/
theorem extract_low_setWidth {n : Nat} (v : BitVec n) (h : n ≤ 64) :
    (v.setWidth 64).extractLsb' 0 n = v := by
  apply BitVec.eq_of_getLsbD_eq
  intro i hi
  simp [hi, show i < 64 by omega]

/-- An ARG whose bits from `n` up are 0 is its low `n` bits, widened. -/
theorem setWidth_extract_low {n : Nat} (a : Word64) (h : a.extractLsb' n (64 - n) = 0) :
    (a.extractLsb' 0 n).setWidth 64 = a := by
  apply BitVec.eq_of_getLsbD_eq
  intro i hi
  simp only [BitVec.getLsbD_setWidth, BitVec.getLsbD_extractLsb', hi, Nat.zero_add, decide_true,
    Bool.true_and]
  by_cases hn : i < n
  · simp [hn]
  · have hb := congrArg (fun v => v.getLsbD (i - n)) h
    simp only [BitVec.getLsbD_extractLsb'] at hb
    rw [show n + (i - n) = i by omega] at hb
    simp [show i - n < 64 - n by omega] at hb
    simp [hn, hb]

end Sys2Proof
end

