-- ==== Sys2Proof/Laws/Float.lean ====
section
/-!
SUPPORT. Laws of the binary32 primitives: the fields of a packed number, the magnitude an encoding stands
for, and what rounding gives.
-/

namespace Sys2Proof.Machine

/-! ## Rounding a fraction to a whole number -/

/-- A whole quotient is not changed by rounding. -/
theorem rneDiv_exact {n d : Nat} (hd : 0 < d) (h : d ∣ n) : rneDiv n d = n / d := by
  have hr : n % d = 0 := Nat.mod_eq_zero_of_dvd h
  simp [rneDiv, hr, hd]

/-- The rounded quotient is the floor or the next number above it. -/
theorem rneDiv_floor (n d : Nat) : rneDiv n d = n / d ∨ rneDiv n d = n / d + 1 := by
  unfold rneDiv
  split
  · exact Or.inl rfl
  · split
    · exact Or.inr rfl
    · rcases Nat.mod_two_eq_zero_or_one (n / d) with h | h <;> simp [h]

/-- The rounded quotient is nearest, and even where another number is as near. -/
theorem rneDiv_nearest {n d : Nat} (hd : 0 < d) (c : Nat) :
    ((rneDiv n d * d : Int) - n).natAbs ≤ ((c * d : Int) - n).natAbs ∧
    (((rneDiv n d * d : Int) - n).natAbs = ((c * d : Int) - n).natAbs →
      c = rneDiv n d ∨ rneDiv n d % 2 = 0) := by
  have hn : n = n / d * d + n % d := by rw [Nat.mul_comm]; exact (Nat.div_add_mod n d).symm
  have hr : n % d < d := Nat.mod_lt n hd
  unfold rneDiv
  generalize n / d = q at *
  generalize n % d = r at *
  subst hn
  have e1 : ((q + 1 : Nat) : Int) * d = q * d + d := by push_cast; ring
  rcases Nat.lt_trichotomy c q with hc | hc | hc
  · have hle : (c : Int) * d + d ≤ q * d := by
      have : ((c + 1 : Nat) : Int) * d ≤ q * d := by
        exact_mod_cast Nat.mul_le_mul_right d hc
      push_cast at this
      linarith
    rcases Nat.mod_two_eq_zero_or_one q with h2 | h2 <;> simp only [h2, Nat.add_zero] <;>
      split <;> (try split) <;> (try rw [e1]) <;> push_cast <;> omega
  · subst hc
    rcases Nat.mod_two_eq_zero_or_one c with h2 | h2 <;> simp only [h2, Nat.add_zero] <;>
      split <;> (try split) <;> (try rw [e1]) <;> push_cast <;> omega
  · have hle : (q : Int) * d + d ≤ c * d := by
      have : ((q + 1 : Nat) : Int) * d ≤ c * d := by
        exact_mod_cast Nat.mul_le_mul_right d hc
      push_cast at this
      linarith
    have heq : (c : Int) * d = q * d + d → c = q + 1 := by
      intro h
      have h' : (c : Int) * d = ((q + 1 : Nat) : Int) * d := by rw [h, e1]
      have h'' : c * d = (q + 1) * d := by exact_mod_cast h'
      exact Nat.eq_of_mul_eq_mul_right hd h''
    rcases Nat.mod_two_eq_zero_or_one q with h2 | h2 <;> simp only [h2, Nat.add_zero] <;>
      split <;> (try split) <;> (try rw [e1]) <;> push_cast <;> omega

/-! ## Packed numbers -/

theorem f32Pack_toNat {sign : Bool} {m : Nat} (h : m < 2 ^ 31) :
    (f32Pack sign m).toNat = sign.toNat * 2 ^ 31 + m := by
  unfold f32Pack
  rw [BitVec.toNat_append, BitVec.toNat_ofBool, BitVec.toNat_ofNat, Nat.mod_eq_of_lt h,
    Nat.shiftLeft_eq, Nat.mul_comm]
  rw [← Nat.two_pow_add_eq_or_of_lt h]

@[simp] theorem f32Sign_pack (sign : Bool) (m : Nat) : f32Sign (f32Pack sign m) = sign := by
  unfold f32Sign f32Pack
  rw [BitVec.msb_append]
  cases sign <;> simp

theorem f32Exp_pack {sign : Bool} {m : Nat} (h : m < 2 ^ 31) :
    f32Exp (f32Pack sign m) = m / 2 ^ 23 := by
  unfold f32Exp
  rw [BitVec.extractLsb'_toNat, f32Pack_toNat h, Nat.shiftRight_eq_div_pow]
  cases sign <;> simp <;> omega

theorem f32Frac_pack {sign : Bool} {m : Nat} (h : m < 2 ^ 31) :
    f32Frac (f32Pack sign m) = m % 2 ^ 23 := by
  unfold f32Frac
  rw [BitVec.extractLsb'_toNat, f32Pack_toNat h, Nat.shiftRight_eq_div_pow]
  cases sign <;> simp; omega

/-- The units a magnitude stands for. -/
def magnitudeUnits (m : Nat) : Nat :=
  if m / 2 ^ 23 = 0 then m % 2 ^ 23 else (2 ^ 23 + m % 2 ^ 23) * 2 ^ (m / 2 ^ 23 - 1)

theorem f32Units_pack {sign : Bool} {m : Nat} (h : m < 2 ^ 31) :
    f32Units (f32Pack sign m) = magnitudeUnits m := by
  unfold f32Units magnitudeUnits
  rw [f32Exp_pack h, f32Frac_pack h]

theorem f32IsFinite_pack {sign : Bool} {m : Nat} (h : m ≤ infMagnitude) :
    f32IsFinite (f32Pack sign m) = true ↔ m < infMagnitude := by
  unfold infMagnitude at *
  unfold f32IsFinite
  rw [f32Exp_pack (by omega), bne_iff_ne]
  omega

/-- A significand of at most 24 bits at a scale: the units of the magnitude it forms. -/
theorem magnitudeUnits_scaled {k sig : Nat} (h : sig ≤ 2 ^ 24) (hk : k = 0 ∨ 2 ^ 23 ≤ sig) :
    magnitudeUnits (k * 2 ^ 23 + sig) = sig * 2 ^ k := by
  unfold magnitudeUnits
  rcases Nat.lt_or_ge sig (2 ^ 23) with hs | hs
  · have hk0 : k = 0 := by omega
    subst hk0
    rw [if_pos (by omega)]
    omega
  · rcases Nat.lt_or_ge sig (2 ^ 24) with hs' | hs'
    · rw [if_neg (by omega), show (k * 2 ^ 23 + sig) / 2 ^ 23 - 1 = k by omega,
        show 2 ^ 23 + (k * 2 ^ 23 + sig) % 2 ^ 23 = sig by omega]
    · have e : sig = 2 ^ 24 := by omega
      subst e
      rw [if_neg (by omega), show (k * 2 ^ 23 + 2 ^ 24) / 2 ^ 23 - 1 = k + 1 by omega,
        show 2 ^ 23 + (k * 2 ^ 23 + 2 ^ 24) % 2 ^ 23 = 2 ^ 23 by omega, Nat.pow_succ]
      ring

/-- The units of a finite number are a significand below 2^24 at a scale. -/
theorem f32Units_scaled (a : F32) (h : f32IsFinite a = true) :
    ∃ s j, f32Units a = s * 2 ^ j ∧ s < 2 ^ 24 ∧ j ≤ 253 ∧ (j = 0 ∨ 2 ^ 23 ≤ s) := by
  have he : f32Exp a < 256 := (a.extractLsb' 23 8).isLt
  have hf : f32Frac a < 2 ^ 23 := (a.extractLsb' 0 23).isLt
  have hn : f32Exp a ≠ 255 := by simpa [f32IsFinite] using h
  unfold f32Units
  split
  · exact ⟨f32Frac a, 0, by simp, by omega, by omega, Or.inl rfl⟩
  · exact ⟨_, _, rfl, by omega, by omega, Or.inr (by omega)⟩

/-! ## Rounding a fraction of units to a magnitude -/

/-- The scale of the rounded number: its unit in the last place is `2 ^ roundScale` units. -/
def roundScale (n d : Nat) : Nat := (n / d).log2 - 23

/-- The significand of the rounded number at that scale. -/
def roundSig (n d : Nat) : Nat := rneDiv n (d * 2 ^ roundScale n d)

theorem roundMagnitude_eq (n d : Nat) :
    roundMagnitude n d = min (roundScale n d * 2 ^ 23 + roundSig n d) infMagnitude := rfl

theorem roundMagnitude_le (n d : Nat) : roundMagnitude n d ≤ infMagnitude := by
  rw [roundMagnitude_eq]
  exact Nat.min_le_right _ _

/-- The floor of the scaled fraction has at most 24 bits, and 24 bits unless the scale is 0. -/
theorem roundScale_bounds (n d : Nat) :
    n / (d * 2 ^ roundScale n d) < 2 ^ 24 ∧
    (roundScale n d = 0 ∨ 2 ^ 23 ≤ n / (d * 2 ^ roundScale n d)) := by
  rw [← Nat.div_div_eq_div_mul]
  unfold roundScale
  generalize n / d = x
  rcases Nat.eq_zero_or_pos x with h0 | h0
  · subst h0; simp
  · have hlt : x < 2 ^ (x.log2 + 1) := Nat.lt_log2_self
    have hle : 2 ^ x.log2 ≤ x := Nat.log2_self_le (by omega)
    rcases Nat.lt_or_ge x.log2 23 with h | h
    · have hk : x.log2 - 23 = 0 := by omega
      rw [hk]
      refine ⟨?_, Or.inl rfl⟩
      have : (2 : Nat) ^ (x.log2 + 1) ≤ 2 ^ 24 := Nat.pow_le_pow_right (by omega) (by omega)
      simp only [Nat.pow_zero, Nat.div_one]
      omega
    · refine ⟨?_, Or.inr ?_⟩
      · rw [Nat.div_lt_iff_lt_mul (Nat.two_pow_pos _), ← Nat.pow_add]
        rwa [show 24 + (x.log2 - 23) = x.log2 + 1 by omega]
      · rw [Nat.le_div_iff_mul_le (Nat.two_pow_pos _), ← Nat.pow_add]
        rwa [show 23 + (x.log2 - 23) = x.log2 by omega]

theorem roundSig_bounds (n d : Nat) :
    roundSig n d ≤ 2 ^ 24 ∧ (roundScale n d = 0 ∨ 2 ^ 23 ≤ roundSig n d) := by
  obtain ⟨h1, h2⟩ := roundScale_bounds n d
  unfold roundSig
  rcases rneDiv_floor n (d * 2 ^ roundScale n d) with h | h <;> rw [h] <;> omega

/-- The units of a rounded number that is finite. -/
theorem roundMagnitude_units {n d : Nat} (h : roundMagnitude n d < infMagnitude) :
    magnitudeUnits (roundMagnitude n d) = roundSig n d * 2 ^ roundScale n d := by
  obtain ⟨h1, h2⟩ := roundSig_bounds n d
  have he : roundMagnitude n d = roundScale n d * 2 ^ 23 + roundSig n d := by
    rw [roundMagnitude_eq] at h ⊢
    omega
  rw [he]
  exact magnitudeUnits_scaled h1 h2

/-- The last bit of a rounded number that is finite is the last bit of its significand. -/
theorem roundMagnitude_even {n d : Nat} (h : roundMagnitude n d < infMagnitude) :
    roundMagnitude n d % 2 = roundSig n d % 2 := by
  rw [roundMagnitude_eq] at h ⊢
  omega

/-- Zero rounds to zero. -/
@[simp] theorem roundMagnitude_zero (d : Nat) : roundMagnitude 0 d = 0 := by
  have hs : roundScale 0 d = 0 := by simp [roundScale]
  rw [roundMagnitude_eq, roundSig, hs]
  simp [rneDiv]

/-- Where the floor is at most an odd number `q0`, a fraction rounds up past `q0` exactly when it reaches
the midpoint above `q0`. -/
theorem rneDiv_above {n D T q0 : Nat} (hD : 0 < D) (hodd : q0 % 2 = 1)
    (hT : T * 2 = D * q0 * 2 + D) (hq : n / D ≤ q0) : q0 + 1 ≤ rneDiv n D ↔ T ≤ n := by
  have hdm := Nat.div_add_mod n D
  have hr : n % D < D := Nat.mod_lt _ hD
  unfold rneDiv
  generalize n / D = q at *
  generalize n % D = r at *
  rcases Nat.lt_or_ge q q0 with hl | hl
  · have hm : D * q + D ≤ D * q0 := Nat.mul_le_mul_left D hl
    rcases Nat.mod_two_eq_zero_or_one q with h2 | h2 <;> rw [h2] <;>
      (split <;> [skip; split]) <;> omega
  · have hqe : q = q0 := by omega
    subst hqe
    rw [hodd]
    (split <;> [skip; split]) <;> omega

/-- Below the largest finite scale a fraction does not overflow. -/
theorem lt_overflow {n y z : Nat} (hn : n < 16777216 * z) (hle : z ≤ y) :
    n < 33554431 * y := by
  omega

/-- Above the largest finite scale a fraction overflows. -/
theorem ge_overflow {n y z : Nat} (hn : 8388608 * z ≤ n) (hle : y * 4 ≤ z) :
    33554431 * y ≤ n := by
  omega

/-- A fraction overflows exactly when it reaches the midpoint between the largest finite number and
2^128. -/
theorem roundMagnitude_overflow {n d : Nat} (hd : 0 < d) :
    roundMagnitude n d = infMagnitude ↔ 33554431 * (d * 2 ^ 252) ≤ n := by
  have hmin : roundMagnitude n d = infMagnitude ↔
      infMagnitude ≤ roundScale n d * 2 ^ 23 + roundSig n d := by
    rw [roundMagnitude_eq]; omega
  rw [hmin]
  obtain ⟨s1, s2⟩ := roundSig_bounds n d
  obtain ⟨b1, b2⟩ := roundScale_bounds n d
  have hD : 0 < d * 2 ^ roundScale n d := Nat.mul_pos hd (Nat.two_pow_pos _)
  unfold infMagnitude
  rcases Nat.lt_trichotomy (roundScale n d) 253 with hk | hk | hk
  · have hn : n < 16777216 * (d * 2 ^ roundScale n d) := (Nat.div_lt_iff_lt_mul hD).1 b1
    have hp : 2 ^ roundScale n d ≤ 2 ^ 252 := Nat.pow_le_pow_right (by omega) (by omega)
    have hlt := lt_overflow hn (Nat.mul_le_mul_left d hp)
    exact iff_of_false (by omega) (Nat.not_le.2 hlt)
  · have hz : d * 2 ^ roundScale n d = d * 2 ^ 252 * 2 := by
      rw [hk, Nat.mul_assoc, ← Nat.pow_succ]
    have ht : 33554431 * (d * 2 ^ 252) * 2 =
        d * 2 ^ roundScale n d * 16777215 * 2 + d * 2 ^ roundScale n d := by
      rw [hz]; ring
    have hb : n / (d * 2 ^ roundScale n d) ≤ 16777215 := by omega
    have hr := rneDiv_above hD (by omega) ht hb
    have he : roundSig n d = rneDiv n (d * 2 ^ roundScale n d) := rfl
    rw [← hr, ← he, hk]
    omega
  · have h3 : 8388608 * (d * 2 ^ roundScale n d) ≤ n :=
      (Nat.le_div_iff_mul_le hD).1 (by omega)
    have hp : 2 ^ (252 + 2) ≤ 2 ^ roundScale n d := Nat.pow_le_pow_right (by omega) (by omega)
    have hle : d * 2 ^ (252 + 2) ≤ d * 2 ^ roundScale n d := Nat.mul_le_mul_left d hp
    rw [Nat.pow_add, ← Nat.mul_assoc] at hle
    exact iff_of_true (by omega) (ge_overflow h3 hle)

/-- Rounding gives a nearest finite number, even where another is as near. -/
theorem roundMagnitude_nearest {n d : Nat} (hd : 0 < d) (hm : roundMagnitude n d < infMagnitude)
    {s j : Nat} (hs : s < 2 ^ 24) :
    ((magnitudeUnits (roundMagnitude n d) * d : Int) - n).natAbs ≤
      (((s * 2 ^ j : Nat) * d : Int) - n).natAbs ∧
    (((magnitudeUnits (roundMagnitude n d) * d : Int) - n).natAbs =
      (((s * 2 ^ j : Nat) * d : Int) - n).natAbs →
      s * 2 ^ j = magnitudeUnits (roundMagnitude n d) ∨ roundMagnitude n d % 2 = 0) := by
  have hD : 0 < d * 2 ^ roundScale n d := Nat.mul_pos hd (Nat.two_pow_pos _)
  rw [roundMagnitude_units hm, roundMagnitude_even hm]
  have hsw : ∀ c : Nat, ((c * 2 ^ roundScale n d : Nat) * d : Int) = c * (d * 2 ^ roundScale n d : Nat) := by
    intro c; push_cast; ring
  rw [hsw]
  have hnear := fun c => rneDiv_nearest (n := n) hD c
  rcases Nat.lt_or_ge j (roundScale n d) with hj | hj
  · have hb := (roundScale_bounds n d).2
    have hq : 2 ^ 23 * (d * 2 ^ roundScale n d) ≤ n :=
      (Nat.le_div_iff_mul_le hD).1 (by omega)
    have hpow : 2 ^ (j + 1) ≤ 2 ^ roundScale n d := Nat.pow_le_pow_right (by omega) hj
    have hlt : s * 2 ^ j < 2 ^ 23 * 2 ^ roundScale n d := by
      have h1 : s * 2 ^ j < 2 ^ 24 * 2 ^ j := Nat.mul_lt_mul_of_pos_right hs (Nat.two_pow_pos _)
      have h2 : 2 ^ 23 * 2 ^ (j + 1) ≤ 2 ^ 23 * 2 ^ roundScale n d := Nat.mul_le_mul_left _ hpow
      rw [Nat.pow_succ 2 j] at h2
      omega
    have hc : s * 2 ^ j * d < 2 ^ 23 * (d * 2 ^ roundScale n d) := by
      have h1 : s * 2 ^ j * d < 2 ^ 23 * 2 ^ roundScale n d * d :=
        Nat.mul_lt_mul_of_pos_right hlt hd
      rwa [Nat.mul_assoc (2 ^ 23), Nat.mul_comm (2 ^ roundScale n d) d] at h1
    have h23 := (hnear (2 ^ 23)).1
    have hcz : ((s * 2 ^ j : Nat) * d : Int) < 2 ^ 23 * (d * 2 ^ roundScale n d : Nat) := by
      exact_mod_cast hc
    have hqz : (2 ^ 23 : Int) * (d * 2 ^ roundScale n d : Nat) ≤ n := by exact_mod_cast hq
    have e23 : (((2 ^ 23 : Nat) : Int)) = 2 ^ 23 := by norm_num
    rw [e23] at h23
    change ((roundSig n d * (d * 2 ^ roundScale n d : Nat) : Int) - n).natAbs ≤ _ at h23
    constructor
    · omega
    · intro he; omega
  · obtain ⟨i, rfl⟩ := Nat.exists_eq_add_of_le hj
    have hc : s * 2 ^ (roundScale n d + i) = s * 2 ^ i * 2 ^ roundScale n d := by
      rw [Nat.pow_add]; ring
    rw [hc, hsw]
    obtain ⟨h1, h2⟩ := hnear (s * 2 ^ i)
    refine ⟨h1, fun he => ?_⟩
    rcases h2 he with h | h
    · left; rw [h]; rfl
    · right; exact h

/-- A fraction that is a significand of at most 24 bits at a scale rounds to itself. -/
theorem roundMagnitude_exact {n d s j : Nat} (hd : 0 < d) (hs : s < 2 ^ 24)
    (hn : n = s * 2 ^ j * d) (hm : roundMagnitude n d < infMagnitude) :
    magnitudeUnits (roundMagnitude n d) * d = n := by
  have h := (roundMagnitude_nearest hd hm (j := j) hs).1
  have e : (((s * 2 ^ j : Nat) * d : Int) - n).natAbs = 0 := by
    rw [hn]; push_cast; simp
  rw [e] at h
  have h0 : (magnitudeUnits (roundMagnitude n d) * d : Int) = n := by omega
  exact_mod_cast h0

/-- Rounding does not cross a finite number from below. -/
theorem roundMagnitude_le_of_le {n d s j : Nat} (hd : 0 < d) (hs : s < 2 ^ 24)
    (hn : n ≤ s * 2 ^ j * d) (hm : roundMagnitude n d < infMagnitude) :
    magnitudeUnits (roundMagnitude n d) ≤ s * 2 ^ j := by
  have h := (roundMagnitude_nearest hd hm (j := j) hs).1
  by_contra hc
  have h1 : (s * 2 ^ j) * d < magnitudeUnits (roundMagnitude n d) * d :=
    Nat.mul_lt_mul_of_pos_right (by omega) hd
  have h2 : (((s * 2 ^ j : Nat) * d : Int)) < magnitudeUnits (roundMagnitude n d) * d := by
    exact_mod_cast h1
  have h3 : (n : Int) ≤ (s * 2 ^ j : Nat) * d := by exact_mod_cast hn
  omega

/-- Rounding does not cross a finite number from above. -/
theorem roundMagnitude_ge_of_ge {n d s j : Nat} (hd : 0 < d) (hs : s < 2 ^ 24)
    (hn : s * 2 ^ j * d ≤ n) (hm : roundMagnitude n d < infMagnitude) :
    s * 2 ^ j ≤ magnitudeUnits (roundMagnitude n d) := by
  have h := (roundMagnitude_nearest hd hm (j := j) hs).1
  by_contra hc
  have h1 : magnitudeUnits (roundMagnitude n d) * d < (s * 2 ^ j) * d :=
    Nat.mul_lt_mul_of_pos_right (by omega) hd
  have h2 : (magnitudeUnits (roundMagnitude n d) * d : Int) < ((s * 2 ^ j : Nat) * d : Int) := by
    exact_mod_cast h1
  have h3 : ((s * 2 ^ j : Nat) * d : Int) ≤ n := by exact_mod_cast hn
  omega

end Sys2Proof.Machine
end

