-- ==== Sys2Proof/Laws/PerInstr.lean ====
section
/-!
SUPPORT. Families of statements made once for each command: `OwnRow`, that a command's word stands in its
own row of 30_encoding.md R66.
-/

namespace Sys2Proof

/-- A word is in the row of an OP whose ARG bits are reserved from bit `n` up exactly when its OP is the
row's and those bits are 0. -/
theorem op_arg_masked (n : Nat) (op : BitVec 8) (arg : Word64)
    (h : arg &&& (BitVec.allOnes 64 <<< n) = 0) :
    (op ++ arg) &&& (0xFF#8 ++ (BitVec.allOnes 64 <<< n)) = op ++ 0#64 := by
  rw [BitVec.and_append, h]
  congr 1
  exact BitVec.and_allOnes

/-- An operand of `n` bits leaves the reserved ARG bits above it 0. -/
theorem setWidth_masked {n : Nat} (v : BitVec n) :
    v.setWidth 64 &&& (BitVec.allOnes 64 <<< n) = 0 := by
  apply BitVec.eq_of_getLsbD_eq
  intro i hi
  simp only [BitVec.getLsbD_and, BitVec.getLsbD_setWidth, BitVec.getLsbD_shiftLeft]
  by_cases h : i < n
  · simp [h]
  · simp [BitVec.getLsbD_of_ge v i (by omega)]

end Sys2Proof

namespace Sys2Proof.Laws

/-- The word of a command stands in the row of R66 that the opcode table gives it. -/
def OwnRow.Statement (i : Instr) : Prop :=
  encode i &&& i.row.mask = i.row.pattern

theorem OwnRow.chksum (x : Word64) : OwnRow.Statement (.chksum x) :=
  op_arg_masked 64 0x01 x (by simp)

theorem OwnRow.decang (f : Frame) : OwnRow.Statement (.decang f) :=
  op_arg_masked 48 0x02 _ (setWidth_masked f.word)

theorem OwnRow.convert (p : Position) : OwnRow.Statement (.convert p) :=
  op_arg_masked 18 0x03 _ (setWidth_masked p)

theorem OwnRow.decmt (f : Frame) : OwnRow.Statement (.decmt f) :=
  op_arg_masked 48 0x04 _ (setWidth_masked f.word)

theorem OwnRow.rdvalid : OwnRow.Statement .rdvalid :=
  op_arg_masked 0 0x05 0 (by simp)

theorem OwnRow.init (r : Resolution) : OwnRow.Statement (.init r) :=
  op_arg_masked 32 0x06 _ (setWidth_masked r)

end Sys2Proof.Laws
end

