-- ==== Sys2Proof/Laws/State.lean ====
section
/-!
SUPPORT. One lemma per field per update of the state, so that no later proof unfolds a record update; and
the ports after the host presents an input.
-/

namespace Sys2Proof.Machine

variable (s : State)

@[simp] theorem State.setRes_res (r : Resolution) : (s.setRes r).res = r := rfl
@[simp] theorem State.setRes_lastValid (r : Resolution) : (s.setRes r).lastValid = s.lastValid := rfl
@[simp] theorem State.setRes_acc (r : Resolution) : (s.setRes r).acc = s.acc := rfl
@[simp] theorem State.setRes_table (r : Resolution) : (s.setRes r).table = s.table := rfl
@[simp] theorem State.setRes_rspCode (r : Resolution) : (s.setRes r).rspCode = s.rspCode := rfl
@[simp] theorem State.setRes_rspData (r : Resolution) : (s.setRes r).rspData = s.rspData := rfl
@[simp] theorem State.setRes_inputs (r : Resolution) : (s.setRes r).inputs = s.inputs := rfl

@[simp] theorem State.setLastValid_res (v : Bool) : (s.setLastValid v).res = s.res := rfl
@[simp] theorem State.setLastValid_lastValid (v : Bool) : (s.setLastValid v).lastValid = v := rfl
@[simp] theorem State.setLastValid_acc (v : Bool) : (s.setLastValid v).acc = s.acc := rfl
@[simp] theorem State.setLastValid_table (v : Bool) : (s.setLastValid v).table = s.table := rfl
@[simp] theorem State.setLastValid_rspCode (v : Bool) : (s.setLastValid v).rspCode = s.rspCode := rfl
@[simp] theorem State.setLastValid_rspData (v : Bool) : (s.setLastValid v).rspData = s.rspData := rfl
@[simp] theorem State.setLastValid_inputs (v : Bool) : (s.setLastValid v).inputs = s.inputs := rfl

@[simp] theorem State.setAcc_res (a : Byte) : (s.setAcc a).res = s.res := rfl
@[simp] theorem State.setAcc_lastValid (a : Byte) : (s.setAcc a).lastValid = s.lastValid := rfl
@[simp] theorem State.setAcc_acc (a : Byte) : (s.setAcc a).acc = a := rfl
@[simp] theorem State.setAcc_table (a : Byte) : (s.setAcc a).table = s.table := rfl
@[simp] theorem State.setAcc_rspCode (a : Byte) : (s.setAcc a).rspCode = s.rspCode := rfl
@[simp] theorem State.setAcc_rspData (a : Byte) : (s.setAcc a).rspData = s.rspData := rfl
@[simp] theorem State.setAcc_inputs (a : Byte) : (s.setAcc a).inputs = s.inputs := rfl

@[simp] theorem State.respond_res (code : RspCode) (data : Word64) : (s.respond code data).res = s.res := rfl
@[simp] theorem State.respond_lastValid (code : RspCode) (data : Word64) : (s.respond code data).lastValid = s.lastValid := rfl
@[simp] theorem State.respond_acc (code : RspCode) (data : Word64) : (s.respond code data).acc = s.acc := rfl
@[simp] theorem State.respond_table (code : RspCode) (data : Word64) : (s.respond code data).table = s.table := rfl
@[simp] theorem State.respond_rspCode (code : RspCode) (data : Word64) : (s.respond code data).rspCode = code := rfl
@[simp] theorem State.respond_rspData (code : RspCode) (data : Word64) : (s.respond code data).rspData = data := rfl
@[simp] theorem State.respond_inputs (code : RspCode) (data : Word64) : (s.respond code data).inputs = s.inputs := rfl

@[simp] theorem State.respondError_res (code : RspCode) : (s.respondError code).res = s.res := rfl
@[simp] theorem State.respondError_lastValid (code : RspCode) : (s.respondError code).lastValid = s.lastValid := rfl
@[simp] theorem State.respondError_acc (code : RspCode) : (s.respondError code).acc = s.acc := rfl
@[simp] theorem State.respondError_table (code : RspCode) : (s.respondError code).table = s.table := rfl
@[simp] theorem State.respondError_rspCode (code : RspCode) : (s.respondError code).rspCode = code := rfl
@[simp] theorem State.respondError_rspData (code : RspCode) : (s.respondError code).rspData = 0 := rfl
@[simp] theorem State.respondError_inputs (code : RspCode) : (s.respondError code).inputs = s.inputs := rfl

@[simp] theorem State.answerIllegal_res : (s.answerIllegal).res = s.res := rfl
@[simp] theorem State.answerIllegal_lastValid : (s.answerIllegal).lastValid = s.lastValid := rfl
@[simp] theorem State.answerIllegal_acc : (s.answerIllegal).acc = s.acc := rfl
@[simp] theorem State.answerIllegal_table : (s.answerIllegal).table = s.table := rfl
@[simp] theorem State.answerIllegal_rspCode : (s.answerIllegal).rspCode = .illegal := rfl
@[simp] theorem State.answerIllegal_rspData : (s.answerIllegal).rspData = 0 := rfl
@[simp] theorem State.answerIllegal_inputs : (s.answerIllegal).inputs = s.inputs := rfl

@[simp] theorem State.applyReset_res : (s.applyReset).res = 0 := rfl
@[simp] theorem State.applyReset_lastValid : (s.applyReset).lastValid = false := rfl
@[simp] theorem State.applyReset_acc : (s.applyReset).acc = accReset := rfl
@[simp] theorem State.applyReset_table : (s.applyReset).table = s.table := rfl
@[simp] theorem State.applyReset_rspCode : (s.applyReset).rspCode = .ok := rfl
@[simp] theorem State.applyReset_rspData : (s.applyReset).rspData = rspDataReset := rfl
@[simp] theorem State.applyReset_inputs : (s.applyReset).inputs = s.inputs := rfl

@[simp] theorem State.takeInput_res : (s.takeInput).res = s.res := rfl
@[simp] theorem State.takeInput_lastValid : (s.takeInput).lastValid = s.lastValid := rfl
@[simp] theorem State.takeInput_acc : (s.takeInput).acc = s.acc := rfl
@[simp] theorem State.takeInput_table : (s.takeInput).table = s.table := rfl
@[simp] theorem State.takeInput_rspCode : (s.takeInput).rspCode = s.rspCode := rfl
@[simp] theorem State.takeInput_rspData : (s.takeInput).rspData = s.rspData := rfl
@[simp] theorem State.takeInput_inputs : (s.takeInput).inputs = s.inputs.tail := rfl

@[simp] theorem State.present_res (p : PortInput) : (s.present p).res = s.res := rfl
@[simp] theorem State.present_lastValid (p : PortInput) : (s.present p).lastValid = s.lastValid := rfl
@[simp] theorem State.present_acc (p : PortInput) : (s.present p).acc = s.acc := rfl
@[simp] theorem State.present_table (p : PortInput) : (s.present p).table = s.table := rfl
@[simp] theorem State.present_rspCode (p : PortInput) : (s.present p).rspCode = s.rspCode := rfl
@[simp] theorem State.present_rspData (p : PortInput) : (s.present p).rspData = s.rspData := rfl
@[simp] theorem State.present_inputs (p : PortInput) : (s.present p).inputs = p :: s.inputs := rfl

@[simp] theorem State.runChecksum_res (x : Word64) : (s.runChecksum x).res = s.res := rfl
@[simp] theorem State.runChecksum_lastValid (x : Word64) : (s.runChecksum x).lastValid = s.lastValid := rfl
@[simp] theorem State.runChecksum_acc (x : Word64) : (s.runChecksum x).acc = checksum s.table x := rfl
@[simp] theorem State.runChecksum_table (x : Word64) : (s.runChecksum x).table = s.table := rfl
@[simp] theorem State.runChecksum_rspCode (x : Word64) : (s.runChecksum x).rspCode = s.rspCode := rfl
@[simp] theorem State.runChecksum_rspData (x : Word64) : (s.runChecksum x).rspData = s.rspData := rfl
@[simp] theorem State.runChecksum_inputs (x : Word64) : (s.runChecksum x).inputs = s.inputs := rfl

@[simp] theorem State.nextInput_present (p : PortInput) : (s.present p).nextInput = p := rfl
@[simp] theorem State.takeInput_present (p : PortInput) : (s.present p).takeInput = s := rfl

/-- What the ports show when the host presents nothing. -/
theorem State.nextInput_nil (h : s.inputs = []) : s.nextInput = .command idleWord := by
  simp [State.nextInput, h]

/-- What the ports show is the first of the host's inputs. -/
theorem State.nextInput_cons {p : PortInput} {rest : List PortInput} (h : s.inputs = p :: rest) :
    s.nextInput = p := by
  simp [State.nextInput, h]

/-- The ports are the host's: a register write does not change what they show. -/
theorem State.nextInput_congr {s t : State} (h : s.inputs = t.inputs) : s.nextInput = t.nextInput := by
  simp [State.nextInput, h]

end Sys2Proof.Machine
end

