-- ==== Sys2Proof/Laws/Step.lean ====
section
/-!
SUPPORT. What each shared operation, each command and the step can do, said once: if it answers a next
state, that state is one of these.
-/

namespace Sys2Proof.Machine

/-- DECANG and CONVERT share this answer (41_angle.md R130, R135). -/
theorem respondAngle_cases (s : State) (p : Position) :
    (s.res = 0 ∧ s.respondAngle p = s.respondError .uninit) ∨
    (s.res ≠ 0 ∧ s.respondAngle p = s.respond .ok (angleData p s.res)) := by
  unfold State.respondAngle
  split <;> simp_all

/-- CHKSUM has one outcome. -/
theorem execChksum_cases {x : Word64} {s t : State} (h : execChksum x s = .next t) :
    t = (s.runChecksum x).respond .ok ((checksum s.table x).setWidth 64) := by
  simpa [execChksum] using h.symm

/-- The state in which DECANG takes its decision: ACC and LAST_VALID are written (41_angle.md R130). -/
def State.afterFlag (s : State) (f : Frame) : State :=
  (s.runChecksum (packed f)).setLastValid (checksumMatches (checksum s.table (packed f)) f)

/-- The frame passes (41_angle.md R125). -/
def framePasses (t : Memory) (f : Frame) : Prop :=
  checksumMatches (checksum t (packed f)) f = true ∧ statusBit f = true

/-- DECANG has three outcomes. -/
theorem execDecang_cases {f : Frame} {s t : State} (h : execDecang f s = .next t) :
    (¬ framePasses s.table f ∧ t = (s.afterFlag f).respondError .frameInvalid) ∨
    (framePasses s.table f ∧ s.res = 0 ∧ t = (s.afterFlag f).respondError .uninit) ∨
    (framePasses s.table f ∧ s.res ≠ 0 ∧
      t = (s.afterFlag f).respond .ok (angleData (position f) s.res)) := by
  unfold execDecang at h
  simp only [State.runChecksum_acc, Bool.and_eq_true] at h
  split at h
  · rename_i hp
    refine Or.inr ?_
    have ha := respondAngle_cases (s.afterFlag f) (position f)
    have hr : (s.afterFlag f).res = s.res := rfl
    simp only [Host.Outcome.next.injEq] at h
    rw [hr] at ha
    rcases ha with ⟨h0, ha⟩ | ⟨h0, ha⟩
    · exact Or.inl ⟨hp, h0, h.symm.trans ha⟩
    · exact Or.inr ⟨hp, h0, h.symm.trans ha⟩
  · rename_i hp
    simp only [Host.Outcome.next.injEq] at h
    exact Or.inl ⟨hp, h.symm⟩

/-- CONVERT has two outcomes. -/
theorem execConvert_cases {p : Position} {s t : State} (h : execConvert p s = .next t) :
    (s.res = 0 ∧ t = s.respondError .uninit) ∨
    (s.res ≠ 0 ∧ t = s.respond .ok (angleData p s.res)) := by
  have ht : s.respondAngle p = t := by simpa [execConvert] using h
  rw [← ht]
  exact respondAngle_cases s p

/-- DECMT has one outcome. -/
theorem execDecmt_cases {f : Frame} {s t : State} (h : execDecmt f s = .next t) :
    t = s.respond .ok ((multiturn f).setWidth 64) := by
  simpa [execDecmt] using h.symm

/-- RDVALID has one outcome. -/
theorem execRdvalid_cases {s t : State} (h : execRdvalid s = .next t) :
    t = s.respond .ok ((BitVec.ofBool s.lastValid).setWidth 64) := by
  simpa [execRdvalid] using h.symm

/-- INIT has three outcomes. -/
theorem execInit_cases {r : Resolution} {s t : State} (h : execInit r s = .next t) :
    (r = 0 ∧ t = s.respondError .resZero) ∨
    (r ≠ 0 ∧ s.res ≠ 0 ∧ t = s.respondError .reinit) ∨
    (r ≠ 0 ∧ s.res = 0 ∧ t = (s.setRes r).respond .ok 0) := by
  unfold execInit at h
  split at h
  · exact Or.inl ⟨‹_›, by simpa using h.symm⟩
  · split at h
    · exact Or.inr (Or.inl ⟨‹_›, ‹_›, by simpa using h.symm⟩)
    · exact Or.inr (Or.inr ⟨‹_›, not_not.1 ‹_›, by simpa using h.symm⟩)

/-- No command stops: each answers a next state (00_scope.md R12). -/
theorem exec_next (i : Instr) (s : State) : ∃ t, exec i s = .next t := by
  cases i with
  | chksum x => exact ⟨_, rfl⟩
  | decang f =>
    show ∃ t, execDecang f s = .next t
    unfold execDecang
    simp only
    split <;> exact ⟨_, rfl⟩
  | convert p => exact ⟨_, rfl⟩
  | decmt f => exact ⟨_, rfl⟩
  | rdvalid => exact ⟨_, rfl⟩
  | init r =>
    show ∃ t, execInit r s = .next t
    unfold execInit
    split
    · exact ⟨_, rfl⟩
    · split <;> exact ⟨_, rfl⟩

/-- A command leaves TABLE and the host's inputs alone. -/
theorem exec_table_inputs {i : Instr} {s t : State} (h : exec i s = .next t) :
    t.table = s.table ∧ t.inputs = s.inputs := by
  cases i with
  | chksum x => rw [execChksum_cases h]; exact ⟨rfl, rfl⟩
  | decang f => rcases execDecang_cases h with ⟨_, rfl⟩ | ⟨_, _, rfl⟩ | ⟨_, _, rfl⟩ <;> exact ⟨rfl, rfl⟩
  | convert p => rcases execConvert_cases h with ⟨_, rfl⟩ | ⟨_, rfl⟩ <;> exact ⟨rfl, rfl⟩
  | decmt f => rw [execDecmt_cases h]; exact ⟨rfl, rfl⟩
  | rdvalid => rw [execRdvalid_cases h]; exact ⟨rfl, rfl⟩
  | init r => rcases execInit_cases h with ⟨_, rfl⟩ | ⟨_, _, rfl⟩ | ⟨_, _, rfl⟩ <;> exact ⟨rfl, rfl⟩

/-- A step is a reset, a decoded command or an illegal word. -/
theorem step_cases {s t : State} (h : step s = .next t) :
    (s.nextInput = .reset ∧ t = s.takeInput.applyReset) ∨
    (∃ w i, s.nextInput = .command w ∧ decode w = .ok i ∧ exec i s.takeInput = .next t) ∨
    (∃ w e, s.nextInput = .command w ∧ decode w = .error e ∧ t = s.takeInput.answerIllegal) := by
  unfold step at h
  split at h
  · exact Or.inl ⟨‹_›, by simpa using h.symm⟩
  · rename_i w hw
    split at h
    · rename_i i hi
      exact Or.inr (Or.inl ⟨w, i, hw, hi, h⟩)
    · rename_i e he
      exact Or.inr (Or.inr ⟨w, e, hw, he, by simpa using h.symm⟩)

/-- A step takes one input and leaves TABLE alone. -/
theorem step_table_inputs {s t : State} (h : step s = .next t) :
    t.table = s.table ∧ t.inputs = s.inputs.tail := by
  rcases step_cases h with ⟨_, rfl⟩ | ⟨w, i, _, _, he⟩ | ⟨w, e, _, _, rfl⟩
  · exact ⟨rfl, rfl⟩
  · exact exec_table_inputs he
  · exact ⟨rfl, rfl⟩

/-- The table stays in canonical form: nothing writes it (20_memory.md R40). -/
theorem step_keeps_table_wf {s t : State} (h : step s = .next t) (hw : Memory.wf s.table = true) :
    Memory.wf t.table = true := by
  rw [(step_table_inputs h).1]
  exact hw

/-- The reset state's memory is in canonical form. -/
theorem reset_table_wf : Memory.wf State.reset.table = true := rfl

end Sys2Proof.Machine
end

