-- ==== Sys2Proof/Laws/Table.lean ====
section
/-!
SUPPORT. Laws of TABLE, and of the checksum engine over it.
-/

namespace Sys2Proof.Machine

/-- An address that is not listed reads as R102 gives it. -/
theorem tableRead_unlisted {t : Memory} {i : Byte} (h : t.lookup i.toNat = none) :
    tableRead t i = romByte i := by
  simp [tableRead, h]

/-- The manufactured TABLE reads as R102 lists it, everywhere. -/
@[simp] theorem tableRead_manufactured (i : Byte) : tableRead Memory.manufactured i = romByte i := rfl

/-- A listed address of a memory whose first cell it is reads as that cell. -/
theorem tableRead_head (i b : Byte) (t : Memory) : tableRead ((i.toNat, b) :: t) i = b := by
  simp [tableRead]

/-- The manufactured TABLE is in canonical form. -/
@[simp] theorem Memory.wf_manufactured : Memory.wf Memory.manufactured = true := rfl

/-- The accumulator steps one byte at a time. -/
theorem accAfter_append (t : Memory) (bs cs : List Byte) :
    accAfter t (bs ++ cs) = cs.foldl (accStep t) (accAfter t bs) := by
  simp [accAfter, List.foldl_append]

/-- A checksum is the accumulator after the eight bytes of its operand. -/
theorem checksum_eq (t : Memory) (x : Word64) : checksum t x = accAfter t (bytesMsbFirst x) := rfl

end Sys2Proof.Machine
end

