-- ==== Sys2Proof/Tests/Slice0.lean ====
section
/-!
SUPPORT. Small tests. Expected values come from the spec: the vectors V-… of 95_test_vectors.md, the tables of
30_encoding.md and 40_checksum.md, or a word written out by hand from R60, R61 and R65. The second half shows,
for every statement with hypotheses, a state and operands that meet them.
-/

namespace Sys2Proof.Tests

open Sys2Proof.Machine Sys2Proof.Claims

/-! ## Helpers -/

/-- A block with this resolution and flag to which the host presents this word. -/
def given (r : Resolution) (v : Bool) (w : CmdWord) : State :=
  { State.reset with res := r, lastValid := v, inputs := [.command w] }

/-- The state after a step. -/
def after (s : State) : State :=
  match step s with
  | .next t => t
  | _ => s

/-- The state after a command. -/
def ran (i : Instr) (s : State) : State :=
  match exec i s with
  | .next t => t
  | _ => s

theorem exec_ran (i : Instr) (s : State) : exec i s = .next (ran i s) := by
  obtain ⟨t, h⟩ := exec_next i s
  simp only [ran, h]

theorem step_after (s : State) : step s = .next (after s) := by
  have h : ∃ t, step s = .next t := by
    unfold step
    split
    · exact ⟨_, rfl⟩
    · split
      · exact exec_next _ _
      · exact ⟨_, rfl⟩
  obtain ⟨t, h⟩ := h
  simp only [after, h]

/-- What a vector of 95_test_vectors.md lists: the response, RES and LAST_VALID. -/
def vector (r : Resolution) (v : Bool) (w : CmdWord) : RspCode × Word64 × Resolution × Bool :=
  let t := after (given r v w)
  (t.rspCode, t.rspData, t.res, t.lastValid)

/-- Frame FC of 95_test_vectors.md. -/
def frameFC : Frame := ⟨0x12, 0x34, 0x80, 0x02, 0x00, 0x2C⟩

/-- A block with RES = 262144. -/
def ready : State := { State.reset with res := 262144 }

/-! ## Well-formedness: an ill-formed line for each check is refused (R70) -/

theorem test_chksum_operand_too_wide : (Source.chksum (2 ^ 64)).wellFormed = false := by decide
theorem test_decang_five_bytes : (Source.decang [1, 2, 3, 4, 5]).wellFormed = false := by decide
theorem test_decang_byte_256 : (Source.decang [1, 2, 3, 4, 5, 256]).wellFormed = false := by decide
theorem test_decang_number_too_wide : (Source.decangWord (2 ^ 48)).wellFormed = false := by decide
theorem test_convert_operand_too_wide : (Source.convert 262144).wellFormed = false := by decide
theorem test_decmt_seven_bytes : (Source.decmt [1, 2, 3, 4, 5, 6, 7]).wellFormed = false := by decide
theorem test_decmt_byte_256 : (Source.decmt [256, 2, 3, 4, 5, 6]).wellFormed = false := by decide
theorem test_decmt_number_too_wide : (Source.decmtWord (2 ^ 48)).wellFormed = false := by decide
theorem test_init_operand_too_wide : (Source.init (2 ^ 32)).wellFormed = false := by decide
theorem test_crc40_six_bytes : (Source.crc40 [1, 2, 3, 4, 5, 6]).wellFormed = false := by decide
theorem test_crc40_byte_256 : (Source.crc40 [1, 2, 3, 4, 256]).wellFormed = false := by decide

/-! ## Decoding: a word of each command written out from R60, R61 and R65 -/

theorem test_decode_chksum :
    decode 0x01FEDCBA9876543210 = .ok (.chksum 0xFEDCBA9876543210) := by decide

theorem test_decode_decang :
    decode 0x020000ABCD40033F0B = .ok (.decang ⟨0xAB, 0xCD, 0x40, 0x03, 0x3F, 0x0B⟩) := by decide

theorem test_decode_convert : decode 0x0300000000000186A0 = .ok (.convert 100000) := by decide

theorem test_decode_decmt :
    decode 0x040000FFFF12345678 = .ok (.decmt ⟨0xFF, 0xFF, 0x12, 0x34, 0x56, 0x78⟩) := by decide

theorem test_decode_rdvalid : decode 0x050000000000000000 = .ok .rdvalid := by decide

theorem test_decode_init : decode 0x0600000000FFFFFFFF = .ok (.init 4294967295) := by decide

/-- V-E1: OP 0x00. -/
theorem test_decode_zero : decode 0 = .error (.unassignedOp 0x00) := by decide

/-- V-E2: OP 0x07. -/
theorem test_decode_op7 : decode 0x070000000000000000 = .error (.unassignedOp 0x07) := by decide

/-- V-S18: CONVERT with ARG[18] set. -/
theorem test_decode_convert_reserved :
    decode 0x030000000000040000 = .error (.reservedBitSet 0x03) := by decide

/-- V-M5: DECMT with ARG[63] set. -/
theorem test_decode_decmt_reserved :
    decode 0x048000123400000000 = .error (.reservedBitSet 0x04) := by decide

/-- V-I8: INIT with ARG[32] set. -/
theorem test_decode_init_reserved :
    decode 0x060000000100040000 = .error (.reservedBitSet 0x06) := by decide

theorem test_encode_convert : encode (.convert 65548) = 0x03000000000001000C := by decide

theorem test_table_word : decodeTableWord 72 0x020000ABCD40033F0B =
    some (.decang ⟨0xAB, 0xCD, 0x40, 0x03, 0x3F, 0x0B⟩) := by decide

/-! ## TABLE (the spot checks of R102) and the binary32 encoding of R11 -/

theorem test_table_spots :
    (tableRead State.reset.table 0x00, tableRead State.reset.table 0x01,
      tableRead State.reset.table 0x80, tableRead State.reset.table 0xFF) =
      (0x00, 0x97, 0xA2, 0x3C) := by decide

theorem test_f32_360 : f32 360 = 0x43B40000 := by decide +kernel

/-! ## One step of each command -/

/-- V-C9. -/
theorem test_chksum : vector 0 false 0x010000001234567890 = (.ok, 0xCD, 0, false) := by
  decide +kernel

/-- V-C10: the upper bytes are processed. -/
theorem test_chksum_upper_bytes :
    vector 0 false 0x01FFFFFFFFFFFFFFFF = (.ok, 0x55, 0, false) := by decide +kernel

/-- V-A9: the low bits of B[4] are no part of the position. -/
theorem test_decang :
    vector 262144 false 0x020000ABCD40033F0B = (.ok, 0x0001000C42B40870, 262144, true) := by
  decide +kernel

/-- V-A20: the status failure is reported before UNINIT, and the flag holds the checksum match. -/
theorem test_decang_status_before_uninit :
    vector 0 false 0x02000012348000001D = (.frameInvalid, 0, 0, true) := by decide +kernel

/-- V-S14: a resolution that f32 rounds, and then one rounding of the quotient. -/
theorem test_convert_rounds_twice :
    vector 16777217 false 0x030000000000000003 = (.ok, 0x0000000338870000, 16777217, false) := by
  decide +kernel

/-- V-S6: P at or above RES is not reduced. -/
theorem test_convert_not_reduced :
    vector 131072 true 0x03000000000003FFFF = (.ok, 0x0003FFFF4433FFD3, 131072, true) := by
  decide +kernel

/-- V-M2: no INIT needed, bytes 2 to 5 ignored. -/
theorem test_decmt : vector 0 true 0x0400001234FFFFFFFF = (.ok, 0x1234, 0, true) := by
  decide +kernel

/-- V-M4: no sign. -/
theorem test_decmt_unsigned :
    vector 0 false 0x040000FFFF12345678 = (.ok, 0xFFFF, 0, false) := by decide +kernel

/-- V-I6: the largest resolution. -/
theorem test_init :
    vector 0 false 0x0600000000FFFFFFFF = (.ok, 0, 4294967295, false) := by decide +kernel

/-- V-I4: RES_ZERO is reported before REINIT. -/
theorem test_init_zero_before_reinit :
    vector 262144 false 0x060000000000000000 = (.resZero, 0, 262144, false) := by decide +kernel

/-- V-R2. -/
theorem test_rdvalid : vector 0 true 0x050000000000000000 = (.ok, 1, 0, true) := by decide +kernel

/-- V-R3. -/
theorem test_rdvalid_reserved :
    vector 0 true 0x050000000000000001 = (.illegal, 0, 0, true) := by decide +kernel

/-- V-E3, from the start state of section 2.7. -/
theorem test_illegal : vector 5 true 0xFF0000000000000000 = (.illegal, 0, 5, true) := by
  decide +kernel

/-! ## Assembler (R70, R71; the lines of programs P1 to P3) -/

theorem test_line_decang :
    assembleLine "DECANG 12 34 80 02 00 2C".toList = .command (.decang frameFC) := by decide

theorem test_line_decang_number :
    assembleLine "DECANG 0x12348002002C ; frame FC".toList = .command (.decang frameFC) := by decide

theorem test_line_crc40 :
    assembleLine "CRC40 12 34 80 02 00".toList = .command (.chksum 0x0000001234800200) := by decide

theorem test_line_init : assembleLine "INIT 262144".toList = .command (.init 262144) := by decide

theorem test_line_out_of_range : assembleLine "CONVERT 262144".toList = .error := by decide

theorem test_line_comment : assembleLine "  ; a comment".toList = .nothing := by decide

/-- The example of R70. -/
theorem test_spell : spell 0x02000012348002002C = "02:000012348002002C".toList := by decide

/-! ## The hypotheses of the statements can be met -/

theorem witness_ResetRestoresAndAloneClearsRes :
    ({ ready with inputs := [.reset] } : State).nextInput = .reset ∧
    (∀ r ∈ [(1 : Resolution), 0xFFFFFFFF],
      (given r true 0x060000000000000000).nextInput = .command 0x060000000000000000 ∧
      (given r true 0x060000000000000000).res ≠ 0 ∧
      step (given r true 0x060000000000000000) =
        .next (after (given r true 0x060000000000000000))) := by
  refine ⟨rfl, fun r h => ⟨rfl, ?_, step_after _⟩⟩
  fin_cases h <;> decide

theorem witness_StepRunsTheDecodedCommand :
    (given 0 false 0x06000000000000000A).nextInput = .command 0x06000000000000000A ∧
    decode 0x06000000000000000A = .ok (.init 10) ∧ (Instr.init 10).wellFormed = true ∧
    decodeTableWord 72 0x06000000000000000A = some (.init 10) := by decide

theorem witness_IdlePortIsAnsweredIllegal : State.reset.inputs = [] := rfl

theorem witness_WordOfNoRowIsAnsweredIllegal :
    (given 5 true 0x00).nextInput = .command 0x00 ∧ ¬ legalWord 0x00 ∧
    ¬ legalWord 0x070000000000000000 ∧ ¬ legalWord 0xFFFFFFFFFFFFFFFFFF ∧
    ¬ legalWord 0x020001000000000000 ∧ ¬ legalWord 0x048000000000000000 ∧
    ¬ legalWord 0x030000000000040000 ∧ ¬ legalWord 0x050000000000000001 ∧
    ¬ legalWord 0x060000000100000000 := by decide

theorem witness_DecodeOfEncode :
    (Instr.chksum 0xFFFFFFFFFFFFFFFF).wellFormed = true ∧ (Instr.decang frameFC).wellFormed = true ∧
    (Instr.convert 0x3FFFF).wellFormed = true ∧ (Instr.decmt frameFC).wellFormed = true ∧
    Instr.rdvalid.wellFormed = true ∧ (Instr.init 0xFFFFFFFF).wellFormed = true := by decide

theorem witness_EncodeOfDecode : decode 0x03000000000003FFFF = .ok (.convert 0x3FFFF) := by decide

theorem witness_OperandsAreTheArgBits :
    (0x0000FFFFFFFFFFFF : Word64).extractLsb' 48 16 = 0 ∧
    (0x000000000003FFFF : Word64).extractLsb' 18 46 = 0 ∧
    (0x00000000FFFFFFFF : Word64).extractLsb' 32 32 = 0 := by decide

theorem witness_ChksumWordFollowsItsRule :
    (given 0 false 0x01FFFFFFFFFFFFFFFF).nextInput =
      .command (0x01#8 ++ 0xFFFFFFFFFFFFFFFF#64) := by decide

theorem witness_EverySingleBitChangesTheChecksum : 0 < 64 ∧ 63 < 64 := by decide

theorem witness_DecangAnswersPositionAndAngle :
    frameValid ready.table frameFC ∧ frameFC.b3.getLsbD 1 = true ∧ ready.res ≠ 0 := by
  decide +kernel

/-- Each cause alone: V-A12 (checksum) and V-A17 (status). -/
theorem witness_DecangRefusesAFailingFrame :
    ¬ frameValid ready.table ⟨0x13, 0x34, 0x80, 0x02, 0x00, 0x2C⟩ ∧
    (frameValid ready.table ⟨0x12, 0x34, 0x80, 0x00, 0x00, 0x1D⟩ ∧
      (0x00 : Byte).getLsbD 1 = false) := by decide +kernel

theorem witness_DecangWithUnsetResolutionIsUninit :
    frameValid State.reset.table frameFC ∧ frameFC.b3.getLsbD 1 = true ∧ State.reset.res = 0 := by
  decide +kernel

/-- A word for each branch, V-A21, V-A12, V-A17, V-A11 and V-A5. -/
theorem witness_DecangWordFollowsItsRule :
    (given 262144 true 0x02000112348002002C).nextInput = .command (0x02#8 ++ 0x000112348002002C#64) ∧
    vector 262144 true 0x02000112348002002C = (.illegal, 0, 262144, true) ∧
    vector 262144 true 0x02000013348002002C = (.frameInvalid, 0, 262144, false) ∧
    vector 262144 false 0x02000012348000001D = (.frameInvalid, 0, 262144, true) ∧
    vector 0 false 0x02000012348002002C = (.uninit, 0, 0, true) ∧
    vector 262144 false 0x02000012348002002C = (.ok, 0x00020008433402D0, 262144, true) := by
  decide +kernel

theorem witness_ConvertAnswersPositionAndAngle : ready.res ≠ 0 := by decide

/-- A word for each branch: V-S18, V-S17 and V-S7. -/
theorem witness_ConvertWordFollowsItsRule :
    (given 7 false 0x030000000000040000).nextInput = .command (0x03#8 ++ 0x0000000000040000#64) ∧
    vector 7 false 0x030000000000040000 = (.illegal, 0, 7, false) ∧
    vector 0 false 0x030000000000000005 = (.uninit, 0, 0, false) ∧
    vector 131072 false 0x030000000000020000 = (.ok, 0x0002000043B40000, 131072, false) := by
  decide +kernel

theorem witness_DecodedPositionBits :
    exec (.decang frameFC) ready = .next (ran (.decang frameFC) ready) ∧
    (ran (.decang frameFC) ready).rspCode = .ok :=
  ⟨exec_ran _ _, by decide +kernel⟩

theorem witness_DecodedPositionHasBitThreeSet :
    exec (.decang frameFC) ready = .next (ran (.decang frameFC) ready) ∧
    (ran (.decang frameFC) ready).rspCode = .ok :=
  ⟨exec_ran _ _, by decide +kernel⟩

theorem witness_ExactStepsOfTheConversion : 0 ≤ 31 ∧ 31 ≤ 31 := by decide

/-- The smallest and the largest resolution; a position that is 0 and one that is not, in and out of
range. -/
theorem witness_AngleIsFiniteAndBelow360WhenInRange :
    (1 : Resolution) ≠ 0 ∧ (0xFFFFFFFF : Resolution) ≠ 0 ∧ (0 : Position) = 0 ∧
    (0x3FFFF : Position) ≠ 0 ∧ (0x3FFFF : Position).toNat < (0xFFFFFFFF : Resolution).toNat ∧
    ¬ (0x3FFFF : Position).toNat < (1 : Resolution).toNat := by decide

/-- The largest finite number times 1, and the smallest subnormal divided by 1. -/
theorem witness_Binary32RoundsToNearestEven :
    0 < 2 ^ 32 ∧ 2 ^ 32 - 1 < 2 ^ 32 ∧
    f32IsFinite 0x7F7FFFFF = true ∧ f32IsFinite 0x3F800000 = true ∧
    f32IsFinite (fmul32 0x7F7FFFFF 0x3F800000) = true ∧
    f32IsFinite 0x00000001 = true ∧ f32IsZero 0x3F800000 = false ∧
    f32IsFinite (fdiv32 0x00000001 0x3F800000) = true := by decide +kernel

/-- The classes of operand the clauses name, with both zeros and both infinities; a product exactly at the
overflow threshold ((2^25 - 1) * 2^103 = (18631 * 2^50) * (1801 * 2^53)) and one below it; a quotient on each
side of it; a result of each operation that is no NaN. -/
theorem witness_Binary32SpecialOperands :
    f32IsNaN 0x7FC00000 = true ∧ f32IsInf 0x7F800000 = true ∧ f32IsInf 0xFF800000 = true ∧
    f32IsZero 0x00000000 = true ∧ f32IsZero 0x80000000 = true ∧
    f32IsNaN 0x7F800000 = false ∧ f32IsZero 0x7F800000 = false ∧
    f32IsNaN 0x00000001 = false ∧ f32IsZero 0x00000001 = false ∧
    f32IsFinite 0x00000001 = true ∧ f32IsFinite 0x7F7FFFFF = true ∧
    f32IsFinite 0x5F918E00 = true ∧ f32IsFinite 0x5F612000 = true ∧
    (2 ^ 25 - 1) * 2 ^ 252 * 2 ^ 149 = f32Units 0x5F918E00 * f32Units 0x5F612000 ∧
    ¬ (2 ^ 25 - 1) * 2 ^ 252 * 2 ^ 149 ≤ f32Units 0x5F918E00 * f32Units 0x5F611FFF ∧
    f32IsFinite 0x3F000000 = true ∧ f32IsZero 0x3F000000 = false ∧
    (2 ^ 25 - 1) * 2 ^ 252 * f32Units 0x3F000000 ≤ f32Units 0x7F7FFFFF * 2 ^ 149 ∧
    f32IsFinite 0x3F800000 = true ∧ f32IsZero 0x3F800000 = false ∧
    ¬ (2 ^ 25 - 1) * 2 ^ 252 * f32Units 0x3F800000 ≤ f32Units 0x7F7FFFFF * 2 ^ 149 ∧
    f32IsNaN (fmul32 0xFF800000 0x00000001) = false ∧
    f32IsNaN (fdiv32 0x00000001 0x80000000) = false := by
  decide +kernel

theorem witness_SynthesisedFrameDecodes :
    (0x02 : Byte).getLsbD 1 = true ∧ ready.res ≠ 0 := by decide

/-- The first and the last of the 48 bits. -/
theorem witness_SingleBitCorruptionIsDetected :
    ready.romIntact = true ∧ frameValid ready.table frameFC ∧ frameFC.b3.getLsbD 1 = true ∧
    0 < 48 ∧ 47 < 48 := by decide +kernel

theorem witness_ClearedStatusBitFailsTheFrame :
    ready.romIntact = true ∧ frameValid ready.table frameFC ∧ frameFC.b3.getLsbD 1 = true := by
  decide +kernel

theorem witness_DecangAndConvertAgree :
    exec (.decang frameFC) ready = .next (ran (.decang frameFC) ready) ∧
    (ran (.decang frameFC) ready).rspCode = .ok :=
  ⟨exec_ran _ _, by decide +kernel⟩

/-- A word for each branch: V-M5 and V-M4. -/
theorem witness_DecmtWordFollowsItsRule :
    (given 0 true 0x048000123400000000).nextInput = .command (0x04#8 ++ 0x8000123400000000#64) ∧
    vector 0 true 0x048000123400000000 = (.illegal, 0, 0, true) ∧
    vector 0 true 0x040000FFFF12345678 = (.ok, 0xFFFF, 0, true) := by decide +kernel

/-- Two frames that differ in bytes 2 to 5 (V-M1 and V-M2). -/
theorem witness_DecmtDependsOnTwoBytes :
    (⟨0x12, 0x34, 0x00, 0x00, 0x00, 0x00⟩ : Frame) ≠ ⟨0x12, 0x34, 0xFF, 0xFF, 0xFF, 0xFF⟩ ∧
    (⟨0x12, 0x34, 0x00, 0x00, 0x00, 0x00⟩ : Frame).b0 =
      (⟨0x12, 0x34, 0xFF, 0xFF, 0xFF, 0xFF⟩ : Frame).b0 ∧
    (⟨0x12, 0x34, 0x00, 0x00, 0x00, 0x00⟩ : Frame).b1 =
      (⟨0x12, 0x34, 0xFF, 0xFF, 0xFF, 0xFF⟩ : Frame).b1 := by decide

/-- The smallest and the largest resolution. -/
theorem witness_InitSetsTheResolution :
    (1 : Resolution) ≠ 0 ∧ (0xFFFFFFFF : Resolution) ≠ 0 ∧ State.reset.res = 0 := by decide

/-- A word for each branch: V-I8, V-I2, V-I3 and V-I5. -/
theorem witness_InitWordFollowsItsRule :
    (given 0 false 0x060000000100040000).nextInput = .command (0x06#8 ++ 0x0000000100040000#64) ∧
    vector 0 false 0x060000000100040000 = (.illegal, 0, 0, false) ∧
    vector 0 false 0x060000000000000000 = (.resZero, 0, 0, false) ∧
    vector 262144 false 0x060000000000020000 = (.reinit, 0, 262144, false) ∧
    vector 0 false 0x060000000000000001 = (.ok, 0, 1, false) := by decide +kernel

/-- A word for each branch: V-R3 and V-R1. -/
theorem witness_RdvalidWordFollowsItsRule :
    (given 0 true 0x050000000000000001).nextInput = .command (0x05#8 ++ 0x0000000000000001#64) ∧
    vector 0 true 0x050000000000000001 = (.illegal, 0, 0, true) ∧
    vector 0 false 0x050000000000000000 = (.ok, 0, 0, false) := by decide +kernel

/-- A step that answers each code. -/
theorem witness_ResponseCodesAndTheirCommands :
    (∀ r v w, (given r v w).nextInput = .command w ∧
      step (given r v w) = .next (after (given r v w))) ∧
    (after (given 0 false 0x050000000000000000)).rspCode = .ok ∧
    (after (given 5 false 0x020000000000000000)).rspCode = .frameInvalid ∧
    (after (given 0 false 0x030000000000000005)).rspCode = .uninit ∧
    (after (given 0 false 0x060000000000000000)).rspCode = .resZero ∧
    (after (given 1 false 0x060000000000000001)).rspCode = .reinit ∧
    (after (given 0 false 0x000000000000000000)).rspCode = .illegal := by
  refine ⟨fun _ _ _ => ⟨rfl, step_after _⟩, ?_⟩
  decide +kernel

/-- A step that answers an error, and each command answering OK. -/
theorem witness_ResponseDataLayout :
    (step (given 0 false 0x00) = .next (after (given 0 false 0x00)) ∧
      (after (given 0 false 0x00)).rspCode ≠ .ok) ∧
    (∀ i s, exec i s = .next (ran i s)) ∧
    (ran (.chksum 1) ready).rspCode = .ok ∧ (ran (.decang frameFC) ready).rspCode = .ok ∧
    (ran (.convert 5) ready).rspCode = .ok ∧ (ran (.decmt frameFC) ready).rspCode = .ok ∧
    (ran .rdvalid ready).rspCode = .ok ∧ (ran (.init 1) State.reset).rspCode = .ok := by
  refine ⟨⟨step_after _, ?_⟩, exec_ran, ?_⟩ <;> decide +kernel

/-- A failing DECANG, and an error of another command. -/
theorem witness_ErrorResponsesChangeOnlyTheFlag :
    (∀ r v w, (given r v w).nextInput = .command w ∧
      step (given r v w) = .next (after (given r v w))) ∧
    (after (given 5 true 0x020000000000000000)).rspCode ≠ .ok ∧
    decode 0x020000000000000000 = .ok (.decang ⟨0, 0, 0, 0, 0, 0⟩) ∧
    (after (given 5 true 0x060000000000000001)).rspCode ≠ .ok ∧
    decode 0x060000000000000001 = .ok (.init 1) := by
  refine ⟨fun _ _ _ => ⟨rfl, step_after _⟩, ?_⟩
  decide +kernel

/-- A command that writes each register. -/
theorem witness_CommandsWriteOnlyTheirRegisters :
    (∀ i s, exec i s = .next (ran i s)) ∧
    (ran (.init 1) State.reset).res ≠ State.reset.res ∧
    (ran (.decang frameFC) State.reset).lastValid ≠ State.reset.lastValid ∧
    (ran (.chksum 1) State.reset).acc ≠ State.reset.acc := by
  refine ⟨exec_ran, ?_⟩
  decide +kernel

theorem witness_EveryStepKeepsTheInvariant :
    (given 262144 true 0x02000012348002002C).Inv ∧
    step (given 262144 true 0x02000012348002002C) =
      .next (after (given 262144 true 0x02000012348002002C)) :=
  ⟨⟨rfl, rfl, rfl, rfl⟩, step_after _⟩

/-- A block that is not set and one that is. -/
theorem witness_ResolutionIsWrittenOnce :
    (given 0 false 0x060000000000000001).inputs = [.command 0x060000000000000001] ∧
    PortInput.reset ∉ [PortInput.command 0x060000000000000001] ∧
    (given 0 false 0x060000000000000001).res = 0 ∧
    (given 7 false 0x060000000000000001).inputs = [.command 0x060000000000000001] ∧
    (given 7 false 0x060000000000000001).res ≠ 0 := by decide

/-- A history for each case: no event, a reset last, an accepted DECANG last. -/
theorem witness_FlagTellsTheMostRecentAngleRead :
    (([PortInput.command 0x028000000000000000].filterMap flagEvent).getLast? = none) ∧
    (([PortInput.command 0x02000012348002002C, .reset].filterMap flagEvent).getLast? =
      some none) ∧
    (([PortInput.reset, .command 0x02000012348002002C].filterMap flagEvent).getLast? =
      some (some frameFC)) := by decide

theorem witness_OnlyRdvalidReadsTheFlag :
    Instr.rdvalid = .rdvalid ∧ Instr.decmt frameFC ≠ .rdvalid := by decide

/-- Two pairs of blocks with the same block 0 and different blocks 1. -/
theorem witness_InstancesAreIndependent :
    (#v[State.reset, ready] : Vector State 2)[(0 : Fin 2)] =
      (#v[State.reset, State.reset] : Vector State 2)[(0 : Fin 2)] ∧
    (1 : Fin 2) ≠ 0 ∧ ready ≠ State.reset := by decide

/-- Both sides of each operand range. -/
theorem witness_AssemblerEncodesEachLine :
    (assemble (.chksum (2 ^ 64 - 1))).isSome = true ∧ assemble (.chksum (2 ^ 64)) = none ∧
    (assemble (.decangWord (2 ^ 48 - 1))).isSome = true ∧ assemble (.decangWord (2 ^ 48)) = none ∧
    (assemble (.convert 262143)).isSome = true ∧ assemble (.convert 262144) = none ∧
    (assemble (.decmtWord (2 ^ 48 - 1))).isSome = true ∧ assemble (.decmtWord (2 ^ 48)) = none ∧
    (assemble (.init (2 ^ 32 - 1))).isSome = true ∧ assemble (.init (2 ^ 32)) = none ∧
    (assemble (.decang [255, 0, 0, 0, 0, 255])).isSome = true ∧
    assemble (.decang [255, 0, 0, 0, 0, 256]) = none ∧
    (assemble (.decmt [255, 0, 0, 0, 0, 255])).isSome = true ∧
    assemble (.decmt [256, 0, 0, 0, 0, 255]) = none := by decide +kernel

end Sys2Proof.Tests
end

/-!
PROOFS. The checksum flag (10_state.md R29 to R32): what a frame's checksum match is, which command words write
LAST_VALID, and what a command does when the flag alone differs.
-/

namespace Sys2Proof

/-! ## Rows of the opcode table -/

/-- The ARG bits from bit `n` up are masked to 0 exactly when the field they form is 0. -/
theorem masked_eq_zero_iff (n : Nat) (arg : Word64) :
    arg &&& (BitVec.allOnes 64 <<< n) = 0 ↔ arg.extractLsb' n (64 - n) = 0 := by
  constructor
  · intro h
    apply BitVec.eq_of_getLsbD_eq
    intro i hi
    have hb := congrArg (fun v => v.getLsbD (n + i)) h
    simp only [BitVec.getLsbD_and, BitVec.getLsbD_shiftLeft, BitVec.getLsbD_allOnes] at hb
    simpa [show n + i < 64 by omega, show i < 64 by omega, hi] using hb
  · intro h
    rw [← setWidth_extract_low arg h]
    exact setWidth_masked _

/-- A word stands in the row of an OP whose ARG bits are reserved from bit `n` up exactly when its OP is the
row's and those bits are 0 (30_encoding.md R66). -/
theorem row_iff_fields (n : Nat) (op : BitVec 8) (w : CmdWord) :
    w &&& (0xFF#8 ++ (BitVec.allOnes 64 <<< n)) = op ++ 0#64 ↔
      opField w = op ∧ (argField w).extractLsb' n (64 - n) = 0 := by
  constructor
  · intro h
    rw [← op_append_arg w, BitVec.and_append] at h
    have hop := congrArg opField h
    have harg := congrArg argField h
    simp only [opField_append, argField_append] at hop harg
    exact ⟨BitVec.and_allOnes.symm.trans hop, (masked_eq_zero_iff n _).1 harg⟩
  · rintro ⟨rfl, h⟩
    conv_lhs => rw [← op_append_arg w]
    exact op_arg_masked n _ _ ((masked_eq_zero_iff n _).2 h)

/-- The words the decoder takes as DECANG (R65, R66). -/
theorem decode_decang_iff {w : CmdWord} {f : Frame} :
    decode w = .ok (.decang f) ↔
      (opField w = 0x02 ∧ (argField w).extractLsb' 48 16 = 0) ∧
        f = .ofWord ((argField w).extractLsb' 0 48) := by
  constructor
  · intro h
    have hc := decode_cases h
    simp only [reduceCtorEq, and_false, false_or, or_false, Instr.decang.injEq] at hc
    exact and_assoc.2 hc
  · rintro ⟨⟨hop, hres⟩, rfl⟩
    simp [decode, hop, hres]

/-- The frame of a 48-bit operand is made of the word's own low bytes (R63). -/
theorem Frame.ofWord_argField (w : CmdWord) :
    Frame.ofWord ((argField w).extractLsb' 0 48) =
      ⟨w.extractLsb' 40 8, w.extractLsb' 32 8, w.extractLsb' 24 8, w.extractLsb' 16 8,
        w.extractLsb' 8 8, w.extractLsb' 0 8⟩ := by
  simp [Frame.ofWord, argField, BitVec.extractLsb'_extractLsb'_of_le]

end Sys2Proof

namespace Sys2Proof.Machine

open Sys2Proof.Claims

/-! ## The checksum match of a frame -/

/-- The packed word of five bytes is three zero bytes and then the five (41_angle.md R122). -/
theorem bytesMsbFirst_pack40 (b0 b1 b2 b3 b4 : Byte) :
    bytesMsbFirst (pack40 b0 b1 b2 b3 b4) = [0, 0, 0, b0, b1, b2, b3, b4] := by
  simp only [bytesMsbFirst, pack40, List.cons.injEq, and_true]
  refine ⟨?_, ?_, ?_, ?_, ?_, ?_, ?_, ?_⟩ <;>
    · apply BitVec.eq_of_getLsbD_eq
      intro i hi
      simp only [BitVec.getLsbD_extractLsb', BitVec.getLsbD_setWidth, BitVec.getLsbD_append]
      grind

/-- The checksum of five packed bytes is the fold of 40_checksum.md R106 over them. -/
theorem checksum_pack40 (t : Memory) (b0 b1 b2 b3 b4 : Byte) :
    checksum t (pack40 b0 b1 b2 b3 b4) = sum5 t b0 b1 b2 b3 b4 := by
  rw [checksum_eq, bytesMsbFirst_pack40]
  rfl

/-- A checksum matches a frame when its complement is byte 5 (41_angle.md R123). -/
theorem checksumMatches_iff (sum : Byte) (f : Frame) :
    checksumMatches sum f = true ↔ ~~~sum = f.b5 := by
  have hinv : sum ^^^ checkInvert = ~~~sum := BitVec.xor_allOnes
  simp [checksumMatches, hinv]

/-- The flag that DECANG computes for a frame is `valid` of R123. -/
theorem checksumMatches_packed_iff (t : Memory) (f : Frame) :
    checksumMatches (checksum t (packed f)) f = true ↔ frameValid t f := by
  rw [checksumMatches_iff, packed, checksum_pack40]

/-! ## Who writes the flag -/

/-- DECANG writes the match of its frame, whatever it then answers (10_state.md R30). -/
theorem exec_decang_lastValid {f : Frame} {s t : State} (h : exec (.decang f) s = .next t) :
    t.lastValid = true ↔ frameValid s.table f := by
  rw [← checksumMatches_packed_iff]
  rcases execDecang_cases h with ⟨_, rfl⟩ | ⟨_, _, rfl⟩ | ⟨_, _, rfl⟩ <;> rfl

/-- No other command writes the flag (R30). -/
theorem exec_lastValid_of_ne_decang {i : Instr} {s t : State} (hi : ∀ f, i ≠ .decang f)
    (h : exec i s = .next t) : t.lastValid = s.lastValid := by
  cases i with
  | chksum x => rw [execChksum_cases h]; rfl
  | decang f => exact absurd rfl (hi f)
  | convert p => rcases execConvert_cases h with ⟨_, rfl⟩ | ⟨_, rfl⟩ <;> rfl
  | decmt f => rw [execDecmt_cases h]; rfl
  | rdvalid => rw [execRdvalid_cases h]; rfl
  | init r => rcases execInit_cases h with ⟨_, rfl⟩ | ⟨_, _, rfl⟩ | ⟨_, _, rfl⟩ <;> rfl

/-! ## The history of the flag -/

/-- A word is an event of the flag's history exactly when the decoder takes it as DECANG. -/
theorem flagEvent_command_eq_some {w : CmdWord} {f : Frame} :
    flagEvent (.command w) = some (some f) ↔ decode w = .ok (.decang f) := by
  have hrow : w &&& 0xFFFFFF000000000000 = 0x020000000000000000 ↔
      opField w = 0x02 ∧ (argField w).extractLsb' 48 16 = 0 := row_iff_fields 48 0x02 w
  rw [decode_decang_iff, ← hrow, Frame.ofWord_argField]
  simp only [flagEvent, Option.ite_none_right_eq_some, Option.some.injEq, eq_comm (a := f)]

/-- A word that does not decode to DECANG is no event of the flag's history. -/
theorem flagEvent_command_eq_none {w : CmdWord} (h : ∀ f, decode w ≠ .ok (.decang f)) :
    flagEvent (.command w) = none := by
  cases he : flagEvent (.command w) with
  | none => rfl
  | some e =>
    cases e with
    | none => simp [flagEvent] at he
    | some f => exact absurd (flagEvent_command_eq_some.1 he) (h f)

/-- The flag that an event leaves behind: `old` without one, 0 after a reset, and after a DECANG the checksum
match of its frame (R29, R30, R32). -/
def flagAfter (t : Memory) (old : Bool) : Option (Option Frame) → Bool
  | none => old
  | some none => false
  | some (some f) => decide (frameValid t f)

/-- The flag after an event and then a history is the flag after the whole history: its last event decides. -/
theorem flagAfter_filterMap_cons (t : Memory) (old : Bool) (p : PortInput) (rest : List PortInput) :
    flagAfter t (flagAfter t old (flagEvent p)) (rest.filterMap flagEvent).getLast? =
      flagAfter t old ((p :: rest).filterMap flagEvent).getLast? := by
  cases hp : flagEvent p with
  | none => simp [hp, flagAfter]
  | some e =>
    simp only [List.filterMap_cons, hp, List.getLast?_cons]
    cases (rest.filterMap flagEvent).getLast? with
    | none => rfl
    | some last => cases last <;> rfl

/-- No step stops (00_scope.md R12). -/
theorem step_next (s : State) : ∃ t, step s = .next t := by
  unfold step
  split
  · exact ⟨_, rfl⟩
  · split
    · exact exec_next _ _
    · exact ⟨_, rfl⟩

/-- What one step does to the flag is what its input's event says. -/
theorem step_lastValid {s t : State} (h : step s = .next t) :
    t.lastValid = flagAfter s.table s.lastValid (flagEvent s.nextInput) := by
  rcases step_cases h with ⟨hin, rfl⟩ | ⟨w, i, hin, hdec, he⟩ | ⟨w, e, hin, hdec, rfl⟩
  · rw [hin]
    rfl
  · rw [hin]
    by_cases hd : ∃ f, i = .decang f
    · obtain ⟨f, rfl⟩ := hd
      rw [flagEvent_command_eq_some.2 hdec, Bool.eq_iff_iff]
      simpa [flagAfter] using exec_decang_lastValid he
    · rw [not_exists] at hd
      rw [flagEvent_command_eq_none (by simpa [hdec] using hd)]
      exact (exec_lastValid_of_ne_decang hd he).trans s.takeInput_lastValid
  · rw [hin, flagEvent_command_eq_none (by simp [hdec])]
    rfl

/-- A run over all of the host's inputs leaves the flag as the last event among them says. -/
theorem run_lastValid (ins : List PortInput) (s : State) (hs : s.inputs = ins) :
    ∃ t, Sys2Proof.core.run ins.length s = .next t ∧
      t.lastValid = flagAfter s.table s.lastValid (ins.filterMap flagEvent).getLast? := by
  induction ins generalizing s with
  | nil => exact ⟨s, rfl, rfl⟩
  | cons p rest ih =>
    obtain ⟨s₁, hstep⟩ := step_next s
    obtain ⟨htable, hinputs⟩ := step_table_inputs hstep
    obtain ⟨t, hrun, hflag⟩ := ih s₁ (by rw [hinputs, hs, List.tail_cons])
    refine ⟨t, (run_succ rest.length hstep).trans hrun, ?_⟩
    rw [hflag, htable, step_lastValid hstep, s.nextInput_cons hs, flagAfter_filterMap_cons]

/-! ## Who reads the flag -/

/-- The shared answer of DECANG and CONVERT does not read the flag (41_angle.md R130, R135). -/
theorem respondAngle_setLastValid (s : State) (p : Position) (v : Bool) :
    (s.setLastValid v).respondAngle p = (s.respondAngle p).setLastValid v := by
  rcases respondAngle_cases s p with ⟨hres, he⟩ | ⟨hres, he⟩
  · rw [he]
    exact if_pos hres
  · rw [he]
    exact if_neg hres

/-- INIT does not read the flag (43_control.md R161). -/
theorem execInit_setLastValid {r : Resolution} {s t : State} (v : Bool)
    (h : execInit r s = .next t) : execInit r (s.setLastValid v) = .next (t.setLastValid v) := by
  unfold execInit
  rcases execInit_cases h with ⟨hr, rfl⟩ | ⟨hr, hres, rfl⟩ | ⟨hr, hres, rfl⟩
  · rw [if_pos hr]; rfl
  · rw [if_neg hr, if_pos (by exact hres)]; rfl
  · rw [if_neg hr, if_neg (by exact not_not.2 hres)]; rfl

/-- DECANG overwrites the flag before anything could read it: it goes to one and the same state (R130). -/
theorem execDecang_setLastValid (f : Frame) (s : State) (v : Bool) :
    execDecang f (s.setLastValid v) = execDecang f s := rfl

/-- On states that differ in the flag alone, every command but RDVALID goes to states that differ at most in the
flag (10_state.md R31). -/
theorem exec_setLastValid {i : Instr} {s t : State} (v : Bool) (hi : i ≠ .rdvalid)
    (h : exec i s = .next t) : ∃ v', exec i (s.setLastValid v) = .next (t.setLastValid v') := by
  cases i with
  | chksum x => rw [execChksum_cases h]; exact ⟨v, rfl⟩
  | decang f => exact ⟨t.lastValid, (execDecang_setLastValid f s v).trans h⟩
  | convert p =>
    have ht : s.respondAngle p = t := by simpa [exec, execConvert] using h
    refine ⟨v, ?_⟩
    rw [← ht, ← respondAngle_setLastValid]
    rfl
  | decmt f => rw [execDecmt_cases h]; exact ⟨v, rfl⟩
  | rdvalid => exact absurd rfl hi
  | init r => exact ⟨v, execInit_setLastValid v h⟩

/-- RDVALID answers the flag in bit 0 (43_control.md R165). -/
theorem exec_rdvalid_rspData_bit0 {s t : State} (h : exec .rdvalid s = .next t) :
    t.rspData.getLsbD 0 = s.lastValid := by
  rw [execRdvalid_cases h]
  simp

/-! ## The obligations -/

/-- Settles O1: the values of the reset state as it is written. -/
theorem resetLeavesResAndFlagZero : Obligations.ResetLeavesResAndFlagZero :=
  ⟨rfl, rfl⟩

/-- Settles O49, by induction on the inputs (`run_lastValid`). -/
theorem flagTellsTheMostRecentAngleRead : Obligations.FlagTellsTheMostRecentAngleRead := by
  intro ins s hs
  obtain ⟨t, hrun, hflag⟩ := run_lastValid ins s hs
  refine ⟨t, hrun, ?_⟩
  generalize (ins.filterMap flagEvent).getLast? = last at hflag ⊢
  rcases last with _ | _ | f
  · exact hflag
  · exact hflag
  · exact hflag ▸ decide_eq_true_iff

/-- Settles O50, by cases on the command (`exec_setLastValid`). -/
theorem onlyRdvalidReadsTheFlag : Obligations.OnlyRdvalidReadsTheFlag := by
  intro i s v
  obtain ⟨t, ht⟩ := exec_next i s
  by_cases hi : i = .rdvalid
  · obtain ⟨t', ht'⟩ := exec_next i (s.setLastValid v)
    refine ⟨t, t', ht, ht', ?_, fun hne => absurd hi hne⟩
    subst hi
    exact fun _ => exec_rdvalid_rspData_bit0 ht'
  · obtain ⟨v', ht'⟩ := exec_setLastValid v hi ht
    exact ⟨t, t.setLastValid v', ht, ht', fun he => absurd he hi, fun _ => rfl⟩

end Sys2Proof.Machine

/-!
PROOFS. The command words (30_encoding.md R60 to R67): the fields by which the decoder takes or refuses a word,
the operands it takes, and the pseudo-instruction CRC40 (R71).
-/

namespace Sys2Proof

open Sys2Proof.Claims

/-! ## The words of the decoder -/

/-- The words of each command by their fields, and the operand each carries (R61, R62, R65). -/
theorem decode_eq_ok_iff {w : CmdWord} {i : Instr} :
    decode w = .ok i ↔
      (opField w = 0x01 ∧ i = .chksum (argField w)) ∨
      (opField w = 0x02 ∧ (argField w).extractLsb' 48 16 = 0 ∧
        i = .decang (.ofWord ((argField w).extractLsb' 0 48))) ∨
      (opField w = 0x03 ∧ (argField w).extractLsb' 18 46 = 0 ∧
        i = .convert ((argField w).extractLsb' 0 18)) ∨
      (opField w = 0x04 ∧ (argField w).extractLsb' 48 16 = 0 ∧
        i = .decmt (.ofWord ((argField w).extractLsb' 0 48))) ∨
      (opField w = 0x05 ∧ argField w = 0 ∧ i = .rdvalid) ∨
      (opField w = 0x06 ∧ (argField w).extractLsb' 32 32 = 0 ∧
        i = .init ((argField w).extractLsb' 0 32)) := by
  refine ⟨decode_cases, ?_⟩
  rintro (⟨hop, rfl⟩ | ⟨hop, hres, rfl⟩ | ⟨hop, hres, rfl⟩ | ⟨hop, hres, rfl⟩ | ⟨hop, hres, rfl⟩ |
    ⟨hop, hres, rfl⟩)
  · simp [decode, hop]
  all_goals simp [decode, hop, hres]

/-- The rows of R66 by the fields of a word: an assigned OP whose reserved ARG bits are 0 (R61, R65). -/
theorem legalWord_iff_fields (w : CmdWord) :
    legalWord w ↔
      opField w = 0x01 ∨
      (opField w = 0x02 ∧ (argField w).extractLsb' 48 16 = 0) ∨
      (opField w = 0x03 ∧ (argField w).extractLsb' 18 46 = 0) ∨
      (opField w = 0x04 ∧ (argField w).extractLsb' 48 16 = 0) ∨
      (opField w = 0x05 ∧ argField w = 0) ∨
      (opField w = 0x06 ∧ (argField w).extractLsb' 32 32 = 0) := by
  have hchksum : inRow 0x010000000000000000 0xFF0000000000000000 w ↔ opField w = 0x01 :=
    (row_iff_fields 64 0x01 w).trans (and_iff_left (BitVec.of_length_zero (x := _)))
  have hrdvalid : inRow 0x050000000000000000 0xFFFFFFFFFFFFFFFFFF w ↔
      opField w = 0x05 ∧ argField w = 0 := by
    simpa using row_iff_fields 0 0x05 w
  exact or_congr hchksum <| or_congr (row_iff_fields 48 0x02 w) <|
    or_congr (row_iff_fields 18 0x03 w) <| or_congr (row_iff_fields 48 0x04 w) <|
    or_congr hrdvalid (row_iff_fields 32 0x06 w)

/-- The decoder takes exactly the words of R66. -/
theorem exists_decode_eq_ok_iff (w : CmdWord) : (∃ i, decode w = .ok i) ↔ legalWord w := by
  simp only [decode_eq_ok_iff, legalWord_iff_fields, exists_or, exists_and_left, exists_eq,
    and_true]

/-- The decoder rejects a word of no row (R67). -/
theorem decode_eq_error_of_not_legalWord {w : CmdWord} (h : ¬ legalWord w) :
    ∃ e, decode w = .error e := by
  cases hd : decode w with
  | ok i => exact absurd ((exists_decode_eq_ok_iff w).1 ⟨i, hd⟩) h
  | error e => exact ⟨e, rfl⟩

/-- An OP is 0, one of the six assigned ones, or at least 0x07 (R65, R67). -/
theorem op_cases (op : BitVec 8) :
    op = 0x00 ∨ op = 0x01 ∨ op = 0x02 ∨ op = 0x03 ∨ op = 0x04 ∨ op = 0x05 ∨ op = 0x06 ∨
      0x07 ≤ op.toNat := by
  bv_omega

/-- The words of no row, by the two cases of R67. -/
theorem not_legalWord_append_iff (op : BitVec 8) (arg : Word64) :
    ¬ legalWord (op ++ arg) ↔
      op = 0x00 ∨ 0x07 ≤ op.toNat ∨
      ((op = 0x02 ∨ op = 0x04) ∧ arg.extractLsb' 48 16 ≠ 0) ∨
      (op = 0x03 ∧ arg.extractLsb' 18 46 ≠ 0) ∨
      (op = 0x05 ∧ arg ≠ 0) ∨
      (op = 0x06 ∧ arg.extractLsb' 32 32 ≠ 0) := by
  rw [legalWord_iff_fields, opField_append, argField_append]
  rcases op_cases op with rfl | rfl | rfl | rfl | rfl | rfl | rfl | hop
  case inr.inr.inr.inr.inr.inr.inr =>
    have hne : ∀ a : BitVec 8, a.toNat < 0x07 → op ≠ a := by
      rintro a ha rfl
      omega
    simp [hop, hne]
  all_goals simp

/-- The frame of a 48-bit operand is made of the ARG's own low bytes (R63). -/
theorem Frame.ofWord_extract_low (arg : Word64) :
    Frame.ofWord (arg.extractLsb' 0 48) =
      ⟨arg.extractLsb' 40 8, arg.extractLsb' 32 8, arg.extractLsb' 24 8, arg.extractLsb' 16 8,
        arg.extractLsb' 8 8, arg.extractLsb' 0 8⟩ := by
  simp [Frame.ofWord, BitVec.extractLsb'_extractLsb'_of_le]

end Sys2Proof

namespace Sys2Proof.Machine

open Sys2Proof.Claims

/-- A word that the decoder rejects is answered ILLEGAL, and the step takes it (R67). -/
theorem step_of_decode_error {s : State} {w : CmdWord} {e : Rejection}
    (hin : s.nextInput = .command w) (hdec : decode w = .error e) :
    step s = .next s.takeInput.answerIllegal := by
  simp [step, hin, hdec]

/-! ## CRC40 -/

/-- The packed word of five bytes is their concatenation below 24 zero bits (41_angle.md R122). -/
theorem pack40_eq_append (b0 b1 b2 b3 b4 : Byte) :
    pack40 b0 b1 b2 b3 b4 = 0#24 ++ b0 ++ b1 ++ b2 ++ b3 ++ b4 := by
  apply BitVec.eq_of_getLsbD_eq
  intro i hi
  simp only [pack40, BitVec.getLsbD_setWidth, BitVec.getLsbD_append]
  grind

/-- A CRC40 line of five bytes is in range and assembles to CHKSUM of the packed bytes (R71). -/
theorem assemble_crc40 (b0 b1 b2 b3 b4 : Byte) :
    assemble (.crc40 [b0.toNat, b1.toNat, b2.toNat, b3.toNat, b4.toNat]) =
      some (.chksum (pack40 b0 b1 b2 b3 b4)) := by
  have hwf : (Source.crc40 [b0.toNat, b1.toNat, b2.toNat, b3.toNat, b4.toNat]).wellFormed = true := by
    simp only [Source.wellFormed, bytesOk, List.length_cons, List.length_nil, List.all_cons,
      List.all_nil, Bool.and_eq_true, decide_eq_true_eq, beq_self_eq_true, and_true, true_and]
    exact ⟨b0.isLt, b1.isLt, b2.isLt, b3.isLt, b4.isLt⟩
  rw [assemble, if_pos hwf]
  simp [instrOfSource, crc40]

/-- CHKSUM answers the checksum of its operand in RSP_DATA[7:0] (40_checksum.md R107). -/
theorem exec_chksum_rspData_low {x : Word64} {s t : State} (h : exec (.chksum x) s = .next t) :
    t.rspData.extractLsb' 0 8 = checksum s.table x := by
  rw [execChksum_cases h, State.respond_rspData]
  exact extract_low_setWidth _ (by decide)

/-! ## The obligations -/

/-- Settles O5: the decoder rejects a word of no row, and the two cases of R67 are the rows' complement. -/
theorem wordOfNoRowIsAnsweredIllegal : Obligations.WordOfNoRowIsAnsweredIllegal := by
  refine ⟨fun s w hin hw => ?_, not_legalWord_append_iff⟩
  obtain ⟨e, hdec⟩ := decode_eq_error_of_not_legalWord hw
  exact step_of_decode_error hin hdec

/-- Settles O8, by the decoder's words (`decode_eq_ok_iff`), one command at a time. -/
theorem operandsAreTheArgBits : Obligations.OperandsAreTheArgBits := by
  intro arg
  simp only [decode_eq_ok_iff, opField_append, argField_append, ← Frame.ofWord_extract_low]
  refine ⟨?chksum, fun hres => ⟨?decang, ?decmt⟩, fun hres => ?convert, fun hres => ?rdvalid,
    fun hres => ?init⟩
  case chksum => simp
  all_goals simp [hres]

/-- Settles O53: DECANG's flag is the match of the fold that CHKSUM answers for the same five bytes. -/
theorem crc40IsDecangsChecksum : Obligations.Crc40IsDecangsChecksum := by
  intro b0 b1 b2 b3 b4 b5 s
  rw [← pack40_eq_append]
  obtain ⟨t, ht⟩ := exec_next (.chksum (pack40 b0 b1 b2 b3 b4)) s
  obtain ⟨t', ht'⟩ := exec_next (.decang ⟨b0, b1, b2, b3, b4, b5⟩) s
  refine ⟨assemble_crc40 b0 b1 b2 b3 b4, t, t', ht, ht', ?_⟩
  have hflag := exec_decang_lastValid ht'
  rwa [exec_chksum_rspData_low ht, checksum_pack40]

end Sys2Proof.Machine

/-!
PROOFS. CHKSUM from the command port to the response port (40_checksum.md R104 to R107).
-/

namespace Sys2Proof.Machine

open Sys2Proof.Claims

/-- A word that the decoder takes is its command, run on the state with the input taken (00_scope.md R12). -/
theorem step_of_decode_ok {s : State} {w : CmdWord} {i : Instr}
    (hin : s.nextInput = .command w) (hdec : decode w = .ok i) : step s = exec i s.takeInput := by
  simp [step, hin, hdec]

/-- CHKSUM writes ACC alone and answers OK with the checksum below 56 zero bits (R107). -/
theorem exec_chksum (x : Word64) (s : State) :
    exec (.chksum x) s =
      .next ((s.setAcc (checksum s.table x)).respond .ok (0#56 ++ checksum s.table x)) := by
  have hdata : (checksum s.table x).setWidth 64 = 0#56 ++ checksum s.table x :=
    BitVec.setWidth_eq_append (by decide)
  rw [← hdata]
  rfl

/-- The step on a CHKSUM word: ACC holds the checksum of ARG, and the host reads it in RSP_DATA (R107). -/
theorem step_chksum {s : State} {x : Word64} (hin : s.nextInput = .command (0x01#8 ++ x)) :
    step s = .next (answered (s.setAcc (checksum s.table x)) .ok (0#56 ++ checksum s.table x)) := by
  have hdec : decode (0x01#8 ++ x) = .ok (.chksum x) := (operandsAreTheArgBits x).1
  rw [step_of_decode_ok hin hdec, exec_chksum]
  rfl

/-- The example of R107. -/
theorem checksum_1234567890 : checksum Memory.manufactured 0x0000001234567890 = 0xCD := by
  decide

/-! ## The obligation -/

/-- Settles O13: the step answers the checksum (`step_chksum`), which is by definition the fold of R106 over the
bytes of ARG. -/
theorem chksumWordFollowsItsRule : Obligations.ChksumWordFollowsItsRule := by
  refine ⟨fun s x hin => ?_, checksum_1234567890⟩
  exact ⟨checksum s.table x, checksum s.table x, rfl, step_chksum hin⟩

end Sys2Proof.Machine

/-!
PROOFS. The angle commands (41_angle.md R121 to R135): the position of a frame, the response that carries it, and
DECANG and CONVERT from the command port to the response port.
-/

namespace Sys2Proof.Machine

open Sys2Proof.Claims

/-! ## The frame -/

/-- The status bit of a frame is bit 1 of its byte 3 (R124). -/
theorem statusBit_iff (f : Frame) : statusBit f = true ↔ f.b3.getLsbD 1 = true := by
  have hmask : f.b3 &&& statusMask = if f.b3.getLsbD 1 then BitVec.twoPow 8 1 else 0#8 :=
    BitVec.and_twoPow f.b3 1
  rw [statusBit, hmask, bne_iff_ne]
  cases f.b3.getLsbD 1 <;> decide

/-- A frame passes when its checksum matches and its status bit is set (R125). -/
theorem framePasses_iff (t : Memory) (f : Frame) :
    framePasses t f ↔ frameValid t f ∧ f.b3.getLsbD 1 = true :=
  and_congr (checksumMatches_packed_iff t f) (statusBit_iff f)

/-- Where the bytes of a frame stand in its position (R126). -/
theorem position_fields (f : Frame) :
    (position f).extractLsb' 10 8 = f.b2 ∧ (position f).extractLsb' 2 8 = f.b3 ∧
      (position f).extractLsb' 0 2 = f.b4.extractLsb' 6 2 := by
  refine ⟨?_, ?_, ?_⟩ <;>
    · apply BitVec.eq_of_getLsbD_eq
      intro i hi
      simp only [position, positionWord, posShift, BitVec.getLsbD_extractLsb', BitVec.getLsbD_append]
      grind

/-! ## The response -/

/-- The data of a decoded position: 14 zero bits, the position, its angle (R130, R135). -/
theorem angleData_eq_append (p : Position) (r : Resolution) :
    angleData p r = 0#14 ++ p ++ angleOf p r := by
  rw [BitVec.append_assoc]
  exact BitVec.setWidth_eq_append (by decide)

/-- The position stands in the data from bit 32 up. -/
theorem extract_angleData (lo n : Nat) (p : Position) (r : Resolution) :
    (angleData p r).extractLsb' (32 + lo) n = p.extractLsb' lo n := by
  apply BitVec.eq_of_getLsbD_eq
  intro i hi
  simp only [angleData, BitVec.getLsbD_extractLsb', BitVec.getLsbD_setWidth, BitVec.getLsbD_append]
  grind

/-- The answer that DECANG and CONVERT share, with its data written out (R130, R135). -/
theorem respondAngle_eq (s : State) (p : Position) :
    s.respondAngle p =
      if s.res = 0 then s.respondError .uninit else s.respond .ok (0#14 ++ p ++ angleOf p s.res) := by
  rw [← angleData_eq_append]
  rfl

/-! ## The commands -/

/-- The state in which DECANG decides: ACC has the fold of R106, and the flag has the match of R123. -/
theorem afterFlag_eq (s : State) (f : Frame) :
    s.afterFlag f =
      (s.setAcc (sum5 s.table f.b0 f.b1 f.b2 f.b3 f.b4)).setLastValid (decide (frameValid s.table f)) := by
  have hflag : checksumMatches (checksum s.table (packed f)) f = decide (frameValid s.table f) :=
    Bool.eq_iff_iff.2 ((checksumMatches_packed_iff s.table f).trans decide_eq_true_iff.symm)
  rw [State.afterFlag, State.runChecksum, hflag, packed, checksum_pack40]

/-- DECANG after the flag is written: the frame decision of R125, then the shared answer. -/
theorem exec_decang (f : Frame) (s : State) :
    exec (.decang f) s = .next (
      if frameValid s.table f ∧ f.b3.getLsbD 1 = true then (s.afterFlag f).respondAngle (position f)
      else (s.afterFlag f).respondError .frameInvalid) := by
  rw [apply_ite Host.Outcome.next]
  exact if_congr (Bool.and_eq_true_iff.trans (framePasses_iff s.table f)) rfl rfl

/-- DECANG by its four answers, in the order of 60_exceptions.md R205. -/
theorem exec_decang_ordered (f : Frame) (s : State) :
    exec (.decang f) s = .next (
      let sum := sum5 s.table f.b0 f.b1 f.b2 f.b3 f.b4
      if sum ^^^ 0xFF ≠ f.b5 then ((s.setAcc sum).setLastValid false).respondError .frameInvalid
      else if f.b3.getLsbD 1 = false then
        ((s.setAcc sum).setLastValid true).respondError .frameInvalid
      else if s.res = 0 then ((s.setAcc sum).setLastValid true).respondError .uninit
      else ((s.setAcc sum).setLastValid true).respond .ok
        (0#14 ++ position f ++ angleOf (position f) s.res)) := by
  have hinvert : sum5 s.table f.b0 f.b1 f.b2 f.b3 f.b4 ^^^ 0xFF =
      ~~~sum5 s.table f.b0 f.b1 f.b2 f.b3 f.b4 := BitVec.xor_allOnes
  dsimp only
  rw [exec_decang, afterFlag_eq, hinvert]
  by_cases hv : frameValid s.table f
  · rw [decide_eq_true hv, if_neg (not_not.2 hv)]
    cases hst : f.b3.getLsbD 1 with
    | false => rw [if_neg (fun h => Bool.false_ne_true h.2), if_pos rfl]
    | true =>
      rw [if_pos ⟨hv, rfl⟩, if_neg (by decide), respondAngle_eq]
      rfl
  · rw [decide_eq_false hv, if_neg (fun h => hv h.1), if_pos hv]

/-- A DECANG or CONVERT word with a reserved ARG bit set is answered ILLEGAL (30_encoding.md R67). -/
theorem step_of_reserved {s : State} {op : BitVec 8} {arg : Word64}
    (hin : s.nextInput = .command (op ++ arg))
    (h : (op = 0x02 ∧ arg.extractLsb' 48 16 ≠ 0) ∨ (op = 0x03 ∧ arg.extractLsb' 18 46 ≠ 0)) :
    step s = .next (answered s .illegal 0) := by
  obtain ⟨hanswer, hwords⟩ := wordOfNoRowIsAnsweredIllegal
  refine hanswer s _ hin ((hwords op arg).2 ?_)
  rcases h with ⟨hop, hset⟩ | hconvert
  · exact .inr (.inr (.inl ⟨.inl hop, hset⟩))
  · exact .inr (.inr (.inr (.inl hconvert)))

/-! ## The obligations -/

/-- Settles O20: a failing frame takes the else branch of R125 (`exec_decang`), and the flag DECANG wrote before
it is the checksum match. -/
theorem decangRefusesAFailingFrame : Obligations.DecangRefusesAFailingFrame := by
  intro f s hfail
  have hexec : exec (.decang f) s = .next ((s.afterFlag f).respondError .frameInvalid) := by
    rw [exec_decang, if_neg]
    rintro ⟨hv, hset⟩
    rcases hfail with hnv | hclear
    · exact hnv hv
    · exact Bool.false_ne_true (hclear.symm.trans hset)
  exact ⟨_, hexec, rfl, rfl, exec_decang_lastValid hexec, rfl⟩

/-- Settles O25: an OK answer carries the position (`execDecang_cases`), whose fields are the frame's bytes. -/
theorem decodedPositionBits : Obligations.DecodedPositionBits := by
  intro f s t ht hok
  rcases execDecang_cases ht with ⟨_, rfl⟩ | ⟨_, _, rfl⟩ | ⟨_, _, rfl⟩
  · cases hok
  · cases hok
  · obtain ⟨hb2, hb3, hb4⟩ := position_fields f
    exact ⟨(extract_angleData 10 8 _ _).trans hb2,
      (extract_angleData 2 8 _ _).trans hb3,
      (extract_angleData 0 2 _ _).trans hb4⟩

/-- Settles O24, by the reserved bits: an illegal word, or CONVERT's shared answer (`respondAngle_eq`). -/
theorem convertWordFollowsItsRule : Obligations.ConvertWordFollowsItsRule := by
  intro s arg hin
  by_cases hres : arg.extractLsb' 18 46 = 0
  · obtain ⟨-, -, hconvert, -⟩ := operandsAreTheArgBits arg
    have hexec : exec (.convert (arg.extractLsb' 0 18)) s.takeInput =
      .next (s.takeInput.respondAngle (arg.extractLsb' 0 18)) := rfl
    rw [step_of_decode_ok hin (hconvert hres), hexec, respondAngle_eq, if_neg (not_not.2 hres)]
    rfl
  · rw [step_of_reserved hin (.inr ⟨rfl, hres⟩), if_pos hres]

/-- Settles O22, by the reserved bits: an illegal word, or DECANG's answers in order
(`exec_decang_ordered`). -/
theorem decangWordFollowsItsRule : Obligations.DecangWordFollowsItsRule := by
  intro s arg hin
  refine ⟨_, _, _, _, _, _, _, _, sum5 s.table (arg.extractLsb' 40 8) (arg.extractLsb' 32 8)
    (arg.extractLsb' 24 8) (arg.extractLsb' 16 8) (arg.extractLsb' 8 8),
    rfl, rfl, rfl, rfl, rfl, rfl, rfl, rfl, ?_⟩
  by_cases hres : arg.extractLsb' 48 16 = 0
  · obtain ⟨-, hframe, -⟩ := operandsAreTheArgBits arg
    obtain ⟨hdecang, -⟩ := hframe hres
    rw [step_of_decode_ok hin hdecang, exec_decang_ordered, if_neg (not_not.2 hres)]
    rfl
  · rw [step_of_reserved hin (.inl ⟨rfl, hres⟩), if_pos hres]

end Sys2Proof.Machine

/-!
PROOFS. The multiturn counter (42_multiturn.md R150 to R153): the value that DECMT reads from a frame, and DECMT
from the command port to the response port.
-/

namespace Sys2Proof.Machine

open Sys2Proof.Claims

/-! ## The counter -/

/-- The data of a counter: 48 zero bits, then byte 0 above byte 1 (R150). -/
theorem setWidth_multiturn (f : Frame) : (multiturn f).setWidth 64 = 0#48 ++ f.b0 ++ f.b1 := by
  rw [BitVec.append_assoc]
  exact BitVec.setWidth_eq_append (by decide)

/-- The counter of a 48-bit operand stands in ARG[47:32] (30_encoding.md R63, R64). -/
theorem multiturn_ofWord_extract_low (arg : Word64) :
    multiturn (.ofWord (arg.extractLsb' 0 48)) = arg.extractLsb' 32 16 := by
  rw [Frame.ofWord_extract_low]
  exact BitVec.extractLsb'_append_extractLsb'_eq_extractLsb' rfl

/-! ## The command -/

/-- DECMT writes the response alone: code OK, and the counter widened with zeros (R151). -/
theorem exec_decmt (f : Frame) (s : State) :
    exec (.decmt f) s = .next (s.respond .ok ((multiturn f).setWidth 64)) := rfl

/-- The step on a DECMT word whose reserved bits are 0 answers ARG[47:32] (R151). -/
theorem step_decmt {s : State} {arg : Word64} (hin : s.nextInput = .command (0x04#8 ++ arg))
    (hres : arg.extractLsb' 48 16 = 0) :
    step s = .next (answered s .ok ((arg.extractLsb' 32 16).setWidth 64)) := by
  have hdec : decode (0x04#8 ++ arg) = .ok (.decmt (.ofWord (arg.extractLsb' 0 48))) :=
    decode_eq_ok_iff.2 (by simp [hres])
  rw [step_of_decode_ok hin hdec, exec_decmt, multiturn_ofWord_extract_low]
  rfl

/-- The step on a DECMT word with a reserved bit set answers ILLEGAL (30_encoding.md R67). -/
theorem step_decmt_of_reserved {s : State} {arg : Word64}
    (hin : s.nextInput = .command (0x04#8 ++ arg)) (hres : arg.extractLsb' 48 16 ≠ 0) :
    step s = .next (answered s .illegal 0) := by
  obtain ⟨hanswer, hwords⟩ := wordOfNoRowIsAnsweredIllegal
  exact hanswer s _ hin ((hwords _ arg).2 (.inr (.inr (.inl ⟨.inr rfl, hres⟩))))

/-! ## The obligations -/

/-- Settles O35: the response of `exec_decmt`, with its data written as the bytes of R150. -/
theorem decmtAnswersTheCounter : Obligations.DecmtAnswersTheCounter := by
  intro f s
  rw [exec_decmt, setWidth_multiturn]
  rfl

/-- Settles O36, by the reserved bits: an illegal word (`step_decmt_of_reserved`), or the counter
(`step_decmt`). -/
theorem decmtWordFollowsItsRule : Obligations.DecmtWordFollowsItsRule := by
  intro s arg hin
  by_cases hres : arg.extractLsb' 48 16 = 0
  · rw [step_decmt hin hres, if_neg (not_not.2 hres)]
  · rw [step_decmt_of_reserved hin hres, if_pos hres]

end Sys2Proof.Machine

/-!
PROOFS. INIT and RDVALID (43_control.md R161, R165) from the command port to the response port.
-/

namespace Sys2Proof.Machine

open Sys2Proof.Claims

/-! ## INIT -/

/-- INIT by its three answers, RES_ZERO before REINIT (R161, 60_exceptions.md R205). -/
theorem exec_init (r : Resolution) (s : State) :
    exec (.init r) s = .next (
      if r = 0 then s.respondError .resZero
      else if s.res ≠ 0 then s.respondError .reinit
      else (s.setRes r).respond .ok 0) := by
  rw [apply_ite Host.Outcome.next, apply_ite Host.Outcome.next]
  rfl

/-- The step on an INIT word whose reserved bits are 0 runs INIT of ARG[31:0] (R161). -/
theorem step_init {s : State} {arg : Word64} (hin : s.nextInput = .command (0x06#8 ++ arg))
    (hres : arg.extractLsb' 32 32 = 0) :
    step s = .next (
      if arg.extractLsb' 0 32 = 0 then answered s .resZero 0
      else if s.res ≠ 0 then answered s .reinit 0
      else answered (s.setRes (arg.extractLsb' 0 32)) .ok 0) := by
  obtain ⟨-, -, -, -, hinit⟩ := operandsAreTheArgBits arg
  rw [step_of_decode_ok hin (hinit hres), exec_init]
  rfl

/-- The step on an INIT word with a reserved bit set answers ILLEGAL (30_encoding.md R67). -/
theorem step_init_of_reserved {s : State} {arg : Word64}
    (hin : s.nextInput = .command (0x06#8 ++ arg)) (hres : arg.extractLsb' 32 32 ≠ 0) :
    step s = .next (answered s .illegal 0) := by
  obtain ⟨hanswer, hwords⟩ := wordOfNoRowIsAnsweredIllegal
  exact hanswer s _ hin ((hwords _ arg).2 (.inr (.inr (.inr (.inr (.inr ⟨rfl, hres⟩))))))

/-! ## RDVALID -/

/-- The data of a flag is 1 when it is set and 0 when it is not (R165). -/
theorem setWidth_ofBool (v : Bool) : (BitVec.ofBool v).setWidth 64 = if v then 1 else 0 := by
  cases v <;> rfl

/-- RDVALID writes the response alone: code OK, and the flag in bit 0 (R165). -/
theorem exec_rdvalid (s : State) :
    exec .rdvalid s = .next (s.respond .ok (if s.lastValid then 1 else 0)) := by
  rw [← setWidth_ofBool]
  rfl

/-- The step on the one RDVALID word answers the flag (R165). -/
theorem step_rdvalid {s : State} (hin : s.nextInput = .command (0x05#8 ++ (0 : Word64))) :
    step s = .next (answered s .ok (if s.lastValid then 1 else 0)) := by
  obtain ⟨-, -, -, hrdvalid, -⟩ := operandsAreTheArgBits 0
  rw [step_of_decode_ok hin (hrdvalid rfl), exec_rdvalid]
  rfl

/-- The step on an RDVALID word whose ARG is not 0 answers ILLEGAL (30_encoding.md R67). -/
theorem step_rdvalid_of_reserved {s : State} {arg : Word64}
    (hin : s.nextInput = .command (0x05#8 ++ arg)) (harg : arg ≠ 0) :
    step s = .next (answered s .illegal 0) := by
  obtain ⟨hanswer, hwords⟩ := wordOfNoRowIsAnsweredIllegal
  exact hanswer s _ hin ((hwords _ arg).2 (.inr (.inr (.inr (.inr (.inl ⟨rfl, harg⟩))))))

/-! ## The obligations -/

/-- Settles O39, by the reserved bits: an illegal word (`step_init_of_reserved`), or INIT's answers in order
(`step_init`). -/
theorem initWordFollowsItsRule : Obligations.InitWordFollowsItsRule := by
  intro s arg hin
  by_cases hres : arg.extractLsb' 32 32 = 0
  · rw [step_init hin hres, if_neg (not_not.2 hres)]
    rfl
  · rw [step_init_of_reserved hin hres, if_pos hres]

/-- Settles O41, by the reserved bits: an illegal word (`step_rdvalid_of_reserved`), or the flag
(`step_rdvalid`). -/
theorem rdvalidWordFollowsItsRule : Obligations.RdvalidWordFollowsItsRule := by
  intro s arg hin
  by_cases harg : arg = 0
  · subst harg
    rw [step_rdvalid hin, if_neg (not_not.2 rfl)]
  · rw [step_rdvalid_of_reserved hin harg, if_pos harg]

end Sys2Proof.Machine

/-!
PROOFS. The responses (60_exceptions.md R200 to R205): the code each command word is answered with, the data that
goes with it, and what an error leaves unchanged.
-/

namespace Sys2Proof.Machine

open Sys2Proof.Claims

/-! ## The code of a response -/

/-- Codes 6 and 7 stand for nothing on the port (R201). -/
theorem RspCode.bits_ne_six_seven (c : RspCode) : c.bits ≠ 6 ∧ c.bits ≠ 7 := by
  cases c <;> decide

/-- The code a legal command is answered with, an earlier error of R205's order first; tied to the model by
`exec_rspCode`. -/
def commandCode (s : State) : Instr → RspCode
  | .chksum _ => .ok
  | .decang f =>
    if frameValid s.table f ∧ f.b3.getLsbD 1 = true then
      if s.res = 0 then .uninit else .ok
    else .frameInvalid
  | .convert _ => if s.res = 0 then .uninit else .ok
  | .decmt _ => .ok
  | .rdvalid => .ok
  | .init r => if r = 0 then .resZero else if s.res = 0 then .ok else .reinit

/-- Taking this step's input changes no code: a code depends on RES and TABLE alone. -/
theorem commandCode_takeInput (s : State) (i : Instr) :
    commandCode s.takeInput i = commandCode s i := by
  cases i <;> rfl

/-- Every command answers its code. -/
theorem exec_rspCode {i : Instr} {s t : State} (h : exec i s = .next t) :
    t.rspCode = commandCode s i := by
  cases i with
  | chksum x => rw [execChksum_cases h]; rfl
  | decang f =>
    have hpass := framePasses_iff s.table f
    rcases execDecang_cases h with ⟨hf, rfl⟩ | ⟨hf, hres, rfl⟩ | ⟨hf, hres, rfl⟩
    · exact (if_neg (hpass.not.1 hf)).symm
    · exact ((if_pos (hpass.1 hf)).trans (if_pos hres)).symm
    · exact ((if_pos (hpass.1 hf)).trans (if_neg hres)).symm
  | convert p =>
    rcases execConvert_cases h with ⟨hres, rfl⟩ | ⟨hres, rfl⟩
    · exact (if_pos hres).symm
    · exact (if_neg hres).symm
  | decmt f => rw [execDecmt_cases h]; rfl
  | rdvalid => rw [execRdvalid_cases h]; rfl
  | init r =>
    rcases execInit_cases h with ⟨hr, rfl⟩ | ⟨hr, hres, rfl⟩ | ⟨hr, hres, rfl⟩
    · exact (if_pos hr).symm
    · exact ((if_neg hr).trans (if_neg hres)).symm
    · exact ((if_neg hr).trans (if_pos hres)).symm

/-- A legal command is never answered ILLEGAL. -/
theorem commandCode_ne_illegal (s : State) (i : Instr) : commandCode s i ≠ .illegal := by
  cases i <;> grind [commandCode]

/-- Only DECANG reports FRAME_INVALID (41_angle.md R125). -/
theorem commandCode_eq_frameInvalid_iff (s : State) (i : Instr) :
    commandCode s i = .frameInvalid ↔
      ∃ f, i = .decang f ∧ (¬ frameValid s.table f ∨ f.b3.getLsbD 1 = false) := by
  cases i <;> grind [commandCode]

/-- DECANG and CONVERT report UNINIT, DECANG after its frame has passed (R130, R135). -/
theorem commandCode_eq_uninit_iff (s : State) (i : Instr) :
    commandCode s i = .uninit ↔ s.res = 0 ∧
      ((∃ f, i = .decang f ∧ frameValid s.table f ∧ f.b3.getLsbD 1 = true) ∨
        ∃ p, i = .convert p) := by
  cases i <;> grind [commandCode]

/-- Only INIT 0 reports RES_ZERO (43_control.md R161). -/
theorem commandCode_eq_resZero_iff (s : State) (i : Instr) :
    commandCode s i = .resZero ↔ i = .init 0 := by
  cases i <;> grind [commandCode]

/-- Only INIT reports REINIT, after RES_ZERO (R161). -/
theorem commandCode_eq_reinit_iff (s : State) (i : Instr) :
    commandCode s i = .reinit ↔ s.res ≠ 0 ∧ ∃ r, r ≠ 0 ∧ i = .init r := by
  cases i <;> grind [commandCode]

/-- The step on a word answers ILLEGAL where the decoder rejects the word, and else the code of its command. -/
theorem step_rspCode {s t : State} {w : CmdWord} (hin : s.nextInput = .command w)
    (h : step s = .next t) :
    (¬ legalWord w ∧ (∀ i, decode w ≠ .ok i) ∧ t.rspCode = .illegal) ∨
    (legalWord w ∧ ∃ i, decode w = .ok i ∧ t.rspCode = commandCode s i) := by
  cases hdec : decode w with
  | error e =>
    rw [step_of_decode_error hin hdec, Host.Outcome.next.injEq] at h
    exact .inl ⟨by simp [← exists_decode_eq_ok_iff, hdec], by simp, h ▸ rfl⟩
  | ok i =>
    rw [step_of_decode_ok hin hdec] at h
    exact .inr ⟨(exists_decode_eq_ok_iff w).1 ⟨i, hdec⟩, i, rfl,
      (exec_rspCode h).trans (commandCode_takeInput s i)⟩

/-! ## What an error does -/

/-- A command that answers an error writes nothing but the response, DECANG its checksum and flag before it
(R203). -/
theorem exec_error {i : Instr} {s t : State} (h : exec i s = .next t) (herr : t.rspCode ≠ .ok) :
    (∃ f, i = .decang f ∧ t = (s.afterFlag f).respondError t.rspCode) ∨
    ((∀ f, i ≠ .decang f) ∧ t = s.respondError t.rspCode) := by
  cases i with
  | chksum x => rw [execChksum_cases h] at herr; exact absurd rfl herr
  | decang f =>
    refine .inl ⟨f, rfl, ?_⟩
    rcases execDecang_cases h with ⟨_, rfl⟩ | ⟨_, _, rfl⟩ | ⟨_, _, rfl⟩
    · rfl
    · rfl
    · exact absurd rfl herr
  | convert p =>
    refine .inr ⟨nofun, ?_⟩
    rcases execConvert_cases h with ⟨_, rfl⟩ | ⟨_, rfl⟩
    · rfl
    · exact absurd rfl herr
  | decmt f => rw [execDecmt_cases h] at herr; exact absurd rfl herr
  | rdvalid => rw [execRdvalid_cases h] at herr; exact absurd rfl herr
  | init r =>
    refine .inr ⟨nofun, ?_⟩
    rcases execInit_cases h with ⟨_, rfl⟩ | ⟨_, _, rfl⟩ | ⟨_, _, rfl⟩
    · rfl
    · rfl
    · exact absurd rfl herr

/-- A command that answers an error answers data 0 (R202). -/
theorem exec_error_rspData {i : Instr} {s t : State} (h : exec i s = .next t)
    (herr : t.rspCode ≠ .ok) : t.rspData = 0 := by
  rcases exec_error h herr with ⟨_, _, ht⟩ | ⟨_, ht⟩
  · rw [ht]; rfl
  · rw [ht]; rfl

/-- A step that answers an error answers data 0 (R202). -/
theorem step_error_rspData {s t : State} (h : step s = .next t) (herr : t.rspCode ≠ .ok) :
    t.rspData = 0 := by
  rcases step_cases h with ⟨_, rfl⟩ | ⟨w, i, _, _, hexec⟩ | ⟨w, e, _, _, rfl⟩
  · exact absurd rfl herr
  · exact exec_error_rspData hexec herr
  · rfl

/-! ## The data of an OK response -/

/-- The fields of a decoded position's data: the angle, the position, 14 zero bits (R202). -/
theorem angleData_fields (p : Position) (r : Resolution) :
    (angleData p r).extractLsb' 0 32 = angleOf p r ∧ (angleData p r).extractLsb' 32 18 = p ∧
      (angleData p r).extractLsb' 50 14 = 0 := by
  refine ⟨?_, (extract_angleData 0 18 p r).trans BitVec.extractLsb'_eq_self,
    extract_high_setWidth (p ++ angle32 p r)⟩
  rw [angleData_eq_append]
  exact BitVec.extractLsb'_append_eq_right

/-! ## The obligations -/

/-- Settles O42: a word of no row is answered ILLEGAL, every other word the code of its command (`step_rspCode`),
and each error's commands are read off that code. -/
theorem responseCodesAndTheirCommands : Obligations.ResponseCodesAndTheirCommands := by
  refine ⟨rfl, rfl, rfl, rfl, rfl, rfl, fun s t w hin h => ?_⟩
  obtain ⟨hsix, hseven⟩ := t.rspCode.bits_ne_six_seven
  refine ⟨hsix, hseven, ?_⟩
  rcases step_rspCode hin h with ⟨hw, hrej, hcode⟩ | ⟨hw, i, hdec, hcode⟩
  · simp [hcode, hrej, hw]
  · simp only [hcode, hdec, Except.ok.injEq]
    exact ⟨iff_of_false (commandCode_ne_illegal s i) (not_not.2 hw),
      commandCode_eq_frameInvalid_iff s i, commandCode_eq_uninit_iff s i,
      commandCode_eq_resZero_iff s i, commandCode_eq_reinit_iff s i⟩

/-- Settles O43: an error answers data 0 (`step_error_rspData`), and an OK answer the one value its command
has. -/
theorem responseDataLayout : Obligations.ResponseDataLayout := by
  refine ⟨fun s t h herr => step_error_rspData h herr, fun i s t h hok => ?_⟩
  cases i with
  | chksum x =>
    refine ⟨exec_chksum_rspData_low h, ?_⟩
    rw [execChksum_cases h]
    exact extract_high_setWidth (checksum s.table x)
  | decang f =>
    rcases execDecang_cases h with ⟨_, rfl⟩ | ⟨_, _, rfl⟩ | ⟨_, _, rfl⟩
    · cases hok
    · cases hok
    · exact angleData_fields (position f) s.res
  | convert p =>
    rcases execConvert_cases h with ⟨_, rfl⟩ | ⟨_, rfl⟩
    · cases hok
    · exact angleData_fields p s.res
  | decmt f =>
    rw [execDecmt_cases h]
    exact ⟨extract_low_setWidth (multiturn f) (by decide), extract_high_setWidth (multiturn f)⟩
  | rdvalid =>
    refine ⟨exec_rdvalid_rspData_bit0 h, ?_⟩
    rw [execRdvalid_cases h]
    exact extract_high_setWidth (BitVec.ofBool s.lastValid)
  | init r =>
    rcases execInit_cases h with ⟨_, rfl⟩ | ⟨_, _, rfl⟩ | ⟨_, _, rfl⟩ <;> rfl

/-- Settles O44, by the word: a rejected word writes the response alone, and so does a command other than DECANG
that answers an error (`exec_error`). -/
theorem errorResponsesChangeOnlyTheFlag : Obligations.ErrorResponsesChangeOnlyTheFlag := by
  intro s t w hin h herr
  obtain ⟨htable, hinputs⟩ := step_table_inputs h
  cases hdec : decode w with
  | error e =>
    rw [step_of_decode_error hin hdec, Host.Outcome.next.injEq] at h
    subst h
    exact ⟨rfl, rfl, rfl, rfl, rfl⟩
  | ok i =>
    rw [step_of_decode_ok hin hdec] at h
    rcases exec_error h herr with ⟨f, rfl, ht⟩ | ⟨hi, ht⟩
    · have hflag := exec_decang_lastValid h
      exact ⟨ht ▸ rfl, htable, hinputs, hflag⟩
    · refine ⟨ht ▸ rfl, htable, hinputs, ?_⟩
      have hkept : t.lastValid = s.lastValid ∧ t.acc = s.acc := ⟨ht ▸ rfl, ht ▸ rfl⟩
      cases i with
      | decang f => exact absurd rfl (hi f)
      | _ => exact hkept

end Sys2Proof.Machine

/-!
PROOFS. Reset (70_reset_and_hazards.md R240, R241): what the step on RESET does, and that no command changes a RES
that is set.
-/
namespace Sys2Proof.Machine

/-! ## The step on RESET -/

/-- The step on RESET takes that input and puts the block in its reset state (R240). -/
theorem step_of_reset {s : State} (hin : s.nextInput = .reset) :
    step s = .next s.takeInput.applyReset := by
  unfold step
  rw [hin]

/-! ## A RES that is set -/

/-- A command leaves a RES that is set as it is: only INIT writes RES, and only where RES is 0 (10_state.md R26,
43_control.md R161). -/
theorem exec_res_of_res_ne_zero {i : Instr} {s t : State} (hres : s.res ≠ 0)
    (h : exec i s = .next t) : t.res = s.res := by
  cases i with
  | chksum x => rw [execChksum_cases h]; rfl
  | decang f => rcases execDecang_cases h with ⟨_, rfl⟩ | ⟨_, _, rfl⟩ | ⟨_, _, rfl⟩ <;> rfl
  | convert p => rcases execConvert_cases h with ⟨_, rfl⟩ | ⟨_, rfl⟩ <;> rfl
  | decmt f => rw [execDecmt_cases h]; rfl
  | rdvalid => rw [execRdvalid_cases h]; rfl
  | init r =>
    rcases execInit_cases h with ⟨_, rfl⟩ | ⟨_, _, rfl⟩ | ⟨_, hunset, _⟩
    · rfl
    · rfl
    · exact absurd hunset hres

/-- Only RESET changes a RES that is set (R240). -/
theorem step_res_of_res_ne_zero {s t : State} (hres : s.res ≠ 0) (hin : s.nextInput ≠ .reset)
    (h : step s = .next t) : t.res = s.res := by
  rcases step_cases h with ⟨hreset, _⟩ | ⟨_, i, _, _, hexec⟩ | ⟨_, _, _, _, rfl⟩
  · exact absurd hreset hin
  · exact exec_res_of_res_ne_zero (s := s.takeInput) hres hexec
  · rfl

/-! ## The obligation -/

/-- Settles O2: RESET by the state it goes to (`step_of_reset`), and a command because it leaves a set RES as it
is (`step_res_of_res_ne_zero`). -/
theorem resetRestoresAndAloneClearsRes : Obligations.ResetRestoresAndAloneClearsRes := by
  refine ⟨fun s hin => ⟨_, step_of_reset hin, rfl, rfl, rfl, rfl⟩, fun s t w hin hres h => ?_⟩
  have hkept : t.res = s.res := step_res_of_res_ne_zero hres (by simp [hin]) h
  exact hkept ▸ hres

end Sys2Proof.Machine

/-!
PROOFS. The encoder against the decoder (30_encoding.md R60 to R66): the two are inverse to each other, and the
words of each command are those of its row.
-/

namespace Sys2Proof

open Sys2Proof.Claims

/-! ## The word of a command -/

@[simp] theorem opField_encode (i : Instr) : opField (encode i) = i.op := opField_append _ _

@[simp] theorem argField_encode (i : Instr) : argField (encode i) = i.arg := argField_append _ _

/-- A command reads back from its word: its reserved ARG bits are 0 (R61) and its operand stands below them
(R62). -/
theorem decode_encode (i : Instr) : decode (encode i) = .ok i := by
  rw [decode_eq_ok_iff, opField_encode, argField_encode]
  cases i with
  | chksum x => simp [Instr.op, Instr.arg]
  | decang f =>
    simp [Instr.op, Instr.arg, extract_high_setWidth f.word, extract_low_setWidth f.word]
  | convert p => simp [Instr.op, Instr.arg, extract_high_setWidth p, extract_low_setWidth p]
  | decmt f =>
    simp [Instr.op, Instr.arg, extract_high_setWidth f.word, extract_low_setWidth f.word]
  | rdvalid => simp [Instr.op, Instr.arg]
  | init r => simp [Instr.op, Instr.arg, extract_high_setWidth r, extract_low_setWidth r]

/-- The fields of a word that decodes to a command are the command's own. -/
theorem fields_of_decode {w : CmdWord} {i : Instr} (h : decode w = .ok i) :
    opField w = i.op ∧ argField w = i.arg := by
  rcases decode_cases h with ⟨hop, rfl⟩ | ⟨hop, hres, rfl⟩ | ⟨hop, hres, rfl⟩ | ⟨hop, hres, rfl⟩ |
    ⟨hop, harg, rfl⟩ | ⟨hop, hres, rfl⟩
  · exact ⟨hop, rfl⟩
  · exact ⟨hop, by rw [Instr.arg, Frame.word_ofWord, setWidth_extract_low _ hres]⟩
  · exact ⟨hop, (setWidth_extract_low _ hres).symm⟩
  · exact ⟨hop, by rw [Instr.arg, Frame.word_ofWord, setWidth_extract_low _ hres]⟩
  · exact ⟨hop, harg⟩
  · exact ⟨hop, (setWidth_extract_low _ hres).symm⟩

/-- A word that decodes to a command is the word of that command. -/
theorem encode_of_decode {w : CmdWord} {i : Instr} (h : decode w = .ok i) : encode i = w := by
  obtain ⟨hop, harg⟩ := fields_of_decode h
  rw [encode, ← hop, ← harg, op_append_arg]

/-! ## The rows of R66 -/

/-- Every ARG bit of CHKSUM is operand: its row fixes the OP alone. -/
theorem inRow_chksum_iff (w : CmdWord) :
    inRow 0x010000000000000000 0xFF0000000000000000 w ↔ opField w = 0x01 :=
  (row_iff_fields 64 0x01 w).trans (and_iff_left BitVec.of_length_zero)

/-- Every ARG bit of RDVALID is reserved: its row is one word. -/
theorem inRow_rdvalid_iff (w : CmdWord) :
    inRow 0x050000000000000000 0xFFFFFFFFFFFFFFFFFF w ↔ opField w = 0x05 ∧ argField w = 0 := by
  simpa using row_iff_fields 0 0x05 w

/-! ## The obligations -/

/-- Settles O9 (`decode_encode`). -/
theorem decodeOfEncode : Obligations.DecodeOfEncode :=
  fun i _ => decode_encode i

/-- Settles O10 (`encode_of_decode`). -/
theorem encodeOfDecode : Obligations.EncodeOfDecode :=
  fun _ _ h => encode_of_decode h

/-- Settles O7: the decoder and the row of a command ask the same of a word's fields. -/
theorem decodeFollowsMatchAndMask : Obligations.DecodeFollowsMatchAndMask := by
  intro w
  refine ⟨.trans ?chksum (inRow_chksum_iff w).symm, .trans ?decang (row_iff_fields 48 0x02 w).symm,
    .trans ?convert (row_iff_fields 18 0x03 w).symm, .trans ?decmt (row_iff_fields 48 0x04 w).symm,
    .trans ?rdvalid (inRow_rdvalid_iff w).symm, .trans ?init (row_iff_fields 32 0x06 w).symm⟩
  all_goals simp [decode_eq_ok_iff]

/-- Settles O11, word by word. -/
theorem sampleWordsDecode : Obligations.SampleWordsDecode := by
  refine ⟨?_, ?_, ?_, ?_, ?_, ?_⟩ <;> decide

end Sys2Proof

/-!
PROOFS. What every step keeps: which command writes which register (10_state.md R26, R30, R33, R34), the invariant,
and the runs that follow from them, one induction over the inputs or the number of steps each.
-/

namespace Sys2Proof.Machine

open Sys2Proof.Claims

/-! ## Who writes RES and ACC -/

/-- A command changes RES only from 0, only as INIT of the new value, and then answers OK (R26). -/
theorem exec_res_of_ne {i : Instr} {s t : State} (h : exec i s = .next t) (hne : t.res ≠ s.res) :
    s.res = 0 ∧ i = .init t.res ∧ t.rspCode = .ok := by
  have hunset : s.res = 0 := by
    by_contra hset
    exact hne (exec_res_of_res_ne_zero hset h)
  refine ⟨hunset, ?_⟩
  cases i with
  | chksum x => rw [execChksum_cases h] at hne; exact absurd rfl hne
  | decang f => rcases execDecang_cases h with ⟨_, rfl⟩ | ⟨_, _, rfl⟩ | ⟨_, _, rfl⟩ <;> exact absurd rfl hne
  | convert p => rcases execConvert_cases h with ⟨_, rfl⟩ | ⟨_, rfl⟩ <;> exact absurd rfl hne
  | decmt f => rw [execDecmt_cases h] at hne; exact absurd rfl hne
  | rdvalid => rw [execRdvalid_cases h] at hne; exact absurd rfl hne
  | init r =>
    rcases execInit_cases h with ⟨_, rfl⟩ | ⟨_, _, rfl⟩ | ⟨_, _, rfl⟩
    · exact absurd rfl hne
    · exact absurd rfl hne
    · exact ⟨rfl, rfl⟩

/-- Only CHKSUM and DECANG write ACC (R33). -/
theorem exec_acc_of_ne {i : Instr} {s t : State} (h : exec i s = .next t) (hne : t.acc ≠ s.acc) :
    (∃ x, i = .chksum x) ∨ ∃ f, i = .decang f := by
  cases i with
  | chksum x => exact .inl ⟨x, rfl⟩
  | decang f => exact .inr ⟨f, rfl⟩
  | convert p => rcases execConvert_cases h with ⟨_, rfl⟩ | ⟨_, rfl⟩ <;> exact absurd rfl hne
  | decmt f => rw [execDecmt_cases h] at hne; exact absurd rfl hne
  | rdvalid => rw [execRdvalid_cases h] at hne; exact absurd rfl hne
  | init r =>
    rcases execInit_cases h with ⟨_, rfl⟩ | ⟨_, _, rfl⟩ | ⟨_, _, rfl⟩ <;> exact absurd rfl hne

/-! ## The invariant -/

/-- A field that is 0 from bit `n` up is 0 in the bits above the layouts of R202. -/
theorem extract_top_of_extract_high {n : Nat} (hn : n ≤ 50) {x : Word64}
    (h : x.extractLsb' n (64 - n) = 0) : x.extractLsb' 50 14 = 0 := by
  have htop : (x.extractLsb' n (64 - n)).extractLsb' (50 - n) 14 = x.extractLsb' 50 14 := by
    apply BitVec.eq_of_getLsbD_eq
    intro i hi
    simp only [BitVec.getLsbD_extractLsb']
    grind
  rw [← htop, h]
  exact BitVec.extractLsb'_zero

/-- Every command leaves the bits of RSP_DATA above [49:0] at 0: an error answers 0, and each layout of R202 ends
below them. -/
theorem exec_responseInLayout {i : Instr} {s t : State} (h : exec i s = .next t) :
    t.rspData.extractLsb' 50 14 = 0 := by
  by_cases hok : t.rspCode = .ok
  case neg => exact exec_error_rspData h hok ▸ BitVec.extractLsb'_zero
  have hlayout := responseDataLayout.2 i s t h hok
  cases i with
  | chksum x => exact extract_top_of_extract_high (by decide) hlayout.2
  | decang f => exact hlayout.2.2
  | convert p => exact hlayout.2.2
  | decmt f => exact extract_top_of_extract_high (by decide) hlayout.2
  | rdvalid => exact extract_top_of_extract_high (by decide) hlayout.2
  | init r => exact (show t.rspData = 0 from hlayout) ▸ BitVec.extractLsb'_zero

/-- Every step leaves the bits of RSP_DATA above [49:0] at 0. -/
theorem step_responseInLayout {s t : State} (h : step s = .next t) : t.responseInLayout = true := by
  rw [State.responseInLayout, beq_iff_eq]
  rcases step_cases h with ⟨_, rfl⟩ | ⟨_, _, _, _, hexec⟩ | ⟨_, _, _, _, rfl⟩
  · exact BitVec.extractLsb'_zero
  · exact exec_responseInLayout hexec
  · exact BitVec.extractLsb'_zero

/-- Every step leaves RSP_DATA at 0 unless it answers OK (R202). -/
theorem step_responseCanonical {s t : State} (h : step s = .next t) : t.responseCanonical = true := by
  rw [State.responseCanonical, Bool.or_eq_true, beq_iff_eq, beq_iff_eq]
  exact or_iff_not_imp_left.2 (step_error_rspData h)

/-- The ROM stays intact: nothing writes TABLE (R34). -/
theorem step_romIntact {s t : State} (h : step s = .next t) : t.romIntact = s.romIntact := by
  rw [State.romIntact, (step_table_inputs h).1, State.romIntact]

/-! ## RES over a run -/

/-- An input carries a nonzero INIT operand exactly when its word decodes to INIT of that operand. -/
theorem nonzeroInit_command_eq_some {w : CmdWord} {r : Resolution} :
    nonzeroInit (.command w) = some r ↔ decode w = .ok (.init r) ∧ r ≠ 0 := by
  have hrow : w &&& 0xFFFFFFFFFF00000000 = 0x060000000000000000 ↔
      opField w = 0x06 ∧ (argField w).extractLsb' 32 32 = 0 := row_iff_fields 32 0x06 w
  have hoperand : (argField w).extractLsb' 0 32 = w.extractLsb' 0 32 := by
    simp [argField, BitVec.extractLsb'_extractLsb'_of_le]
  simp only [nonzeroInit, hrow, decode_eq_ok_iff, hoperand]
  grind

/-- A step leaves an unset RES at the operand of a nonzero INIT, and at 0 on every other input (R26, 43_control.md
R161). -/
theorem step_res_of_res_eq_zero {s t : State} (hres : s.res = 0) (h : step s = .next t) :
    t.res = (nonzeroInit s.nextInput).getD 0 := by
  rcases step_cases h with ⟨hin, rfl⟩ | ⟨w, i, hin, hdec, hexec⟩ | ⟨w, e, hin, hdec, rfl⟩ <;> rw [hin]
  · rfl
  · cases hni : nonzeroInit (.command w) with
    | none =>
      by_contra hne
      have hset : t.res ≠ 0 := hne
      obtain ⟨-, rfl, -⟩ := exec_res_of_ne hexec (fun he => hset (he.trans hres))
      exact Option.some_ne_none _ ((nonzeroInit_command_eq_some.2 ⟨hdec, hset⟩).symm.trans hni)
    | some r =>
      obtain ⟨hinit, hr⟩ := nonzeroInit_command_eq_some.1 hni
      obtain rfl : i = .init r := Except.ok.inj (hdec.symm.trans hinit)
      rw [exec_init, if_neg hr, if_neg (not_not.2 (by exact hres)), Host.Outcome.next.injEq] at hexec
      exact hexec ▸ rfl
  · have hnone : nonzeroInit (.command w) = none := by
      simp [Option.eq_none_iff_forall_ne_some, nonzeroInit_command_eq_some, hdec]
    rw [hnone]
    exact hres

/-- RES after a run over inputs without a reset: the first nonzero INIT operand if RES was 0, and else what it
was. -/
theorem run_res (ins : List PortInput) (s : State) (hs : s.inputs = ins) (hins : .reset ∉ ins) :
    ∃ t, Sys2Proof.core.run ins.length s = .next t ∧ t.inputs = [] ∧
      t.res = if s.res = 0 then (ins.filterMap nonzeroInit).head?.getD 0 else s.res := by
  induction ins generalizing s with
  | nil =>
    refine ⟨s, rfl, hs, ?_⟩
    split <;> simp_all
  | cons p rest ih =>
    obtain ⟨hp, hrest⟩ := List.ne_and_not_mem_of_not_mem_cons hins
    have hin : s.nextInput = p := s.nextInput_cons hs
    obtain ⟨s₁, hstep⟩ := step_next s
    have hinputs : s₁.inputs = rest := by rw [(step_table_inputs hstep).2, hs, List.tail_cons]
    obtain ⟨t, hrun, hdone, hres⟩ := ih s₁ hinputs hrest
    refine ⟨t, (run_succ rest.length hstep).trans hrun, hdone, ?_⟩
    rw [hres]
    by_cases hunset : s.res = 0
    · rw [step_res_of_res_eq_zero hunset hstep, hin, if_pos hunset]
      cases hni : nonzeroInit p with
      | none => simp [hni]
      | some r =>
        have hr : r ≠ 0#32 := by
          cases p with
          | command w => exact (nonzeroInit_command_eq_some.1 hni).2
          | reset => exact absurd rfl hp
        simp [hni, hr]
    · rw [step_res_of_res_ne_zero hunset (hin ▸ hp.symm) hstep, if_neg hunset, if_neg hunset]

/-! ## ACC over a run -/

/-- Both states have one value in every field but ACC. -/
theorem sameButAcc_setAcc (s : State) (a : Byte) : s.sameButAcc (s.setAcc a) := rfl

/-- DECANG and CONVERT's shared answer does not read ACC (41_angle.md R130, R135). -/
theorem respondAngle_setAcc (s : State) (p : Position) (a : Byte) :
    (s.setAcc a).respondAngle p = (s.respondAngle p).setAcc a := by
  rw [respondAngle_eq, respondAngle_eq, apply_ite (State.setAcc · a)]
  rfl

/-- On states that differ in ACC alone, every command goes to states that differ at most in ACC: CHKSUM and DECANG
write ACC before they read it, and no other command reads it (R33). -/
theorem exec_setAcc {i : Instr} {s t : State} (a : Byte) (h : exec i s = .next t) :
    ∃ a', exec i (s.setAcc a) = .next (t.setAcc a') := by
  cases i with
  | chksum x => exact ⟨t.acc, h⟩
  | decang f => exact ⟨t.acc, h⟩
  | convert p =>
    have ht : s.respondAngle p = t := Host.Outcome.next.inj h
    exact ⟨a, congrArg Host.Outcome.next (ht ▸ respondAngle_setAcc s p a)⟩
  | decmt f => rw [execDecmt_cases h]; exact ⟨a, rfl⟩
  | rdvalid => rw [execRdvalid_cases h]; exact ⟨a, rfl⟩
  | init r =>
    rw [exec_init, Host.Outcome.next.injEq] at h
    refine ⟨a, ?_⟩
    rw [exec_init, ← h, apply_ite (State.setAcc · a), apply_ite (State.setAcc · a)]
    rfl

/-- A step on states that differ in ACC alone goes to states that differ at most in ACC. -/
theorem step_setAcc {s t : State} (a : Byte) (h : step s = .next t) :
    ∃ a', step (s.setAcc a) = .next (t.setAcc a') := by
  have hports : (s.setAcc a).nextInput = s.nextInput := rfl
  rcases step_cases h with ⟨hin, rfl⟩ | ⟨w, i, hin, hdec, hexec⟩ | ⟨w, e, hin, hdec, rfl⟩
  · exact ⟨accReset, step_of_reset (hports.trans hin)⟩
  · obtain ⟨a', ha'⟩ := exec_setAcc a hexec
    exact ⟨a', (step_of_decode_ok (hports.trans hin) hdec).trans ha'⟩
  · exact ⟨a, step_of_decode_error (hports.trans hin) hdec⟩

/-- Every run goes on: each of its steps answers a next state. -/
theorem run_next (k : Nat) (s : State) : ∃ t, Sys2Proof.core.run k s = .next t := by
  induction k generalizing s with
  | zero => exact ⟨s, rfl⟩
  | succ k ih =>
    obtain ⟨s₁, hstep⟩ := step_next s
    obtain ⟨t, hrun⟩ := ih s₁
    exact ⟨t, (run_succ k hstep).trans hrun⟩

/-- Runs from states that differ in ACC alone end in states that differ at most in ACC. -/
theorem run_setAcc (k : Nat) {s t : State} (a : Byte) (h : Sys2Proof.core.run k s = .next t) :
    ∃ a', Sys2Proof.core.run k (s.setAcc a) = .next (t.setAcc a') := by
  induction k generalizing s a with
  | zero =>
    obtain rfl : s = t := Host.Outcome.next.inj h
    exact ⟨a, rfl⟩
  | succ k ih =>
    obtain ⟨s₁, hstep⟩ := step_next s
    obtain ⟨a₁, hstep'⟩ := step_setAcc a hstep
    rw [run_succ k hstep] at h
    rw [run_succ k hstep']
    exact ih a₁ h

/-! ## Blocks side by side -/

/-- A step of block `k` writes the state that block steps to in its place. -/
theorem stepInstance_of_step {n : Nat} {k : Fin n} {blocks : Vector State n} {t : State}
    (h : step blocks[k] = .next t) : stepInstance k blocks = .next (blocks.set k t) := by
  unfold stepInstance
  rw [h]

/-! ## The obligations -/

/-- Settles O47, one part of the invariant at a time: TABLE is not written, and the response is the one of this
step. -/
theorem everyStepKeepsTheInvariant : Obligations.EveryStepKeepsTheInvariant := by
  rintro s t ⟨hrom, hwf, -, -⟩ h
  exact ⟨(step_romIntact h).trans hrom, step_keeps_table_wf h hwf, step_responseCanonical h,
    step_responseInLayout h⟩

/-- Settles O48, by induction on the inputs (`run_res`). -/
theorem resolutionIsWrittenOnce : Obligations.ResolutionIsWrittenOnce := by
  intro ins s hs hins
  obtain ⟨t, hrun, hdone, hres⟩ := run_res ins s hs hins
  exact ⟨t, hrun, hdone, fun h => hres.trans (if_pos h), fun h => hres.trans (if_neg h)⟩

/-- Settles O51, by induction on the number of steps (`run_setAcc`). -/
theorem accumulatorCannotBeObserved : Obligations.AccumulatorCannotBeObserved := by
  intro k s a
  obtain ⟨t, hrun⟩ := run_next k s
  obtain ⟨a', hrun'⟩ := run_setAcc k a hrun
  exact ⟨t, t.setAcc a', hrun, hrun', sameButAcc_setAcc t a'⟩

/-- Settles O6, by induction on the number of steps (`run_next`). -/
theorem everyRunCompletes : Obligations.EveryRunCompletes := run_next

/-- Settles O45, one register at a time. -/
theorem commandsWriteOnlyTheirRegisters : Obligations.CommandsWriteOnlyTheirRegisters := by
  intro i s t h
  refine ⟨exec_res_of_ne h, fun hne => ?_, exec_acc_of_ne h, exec_table_inputs h⟩
  by_contra hno
  exact hne (exec_lastValid_of_ne_decang (fun f hf => hno ⟨f, hf⟩) h)

/-- Settles O52: the step of a block is a function of that block's state, and its result is written in that
block's place. -/
theorem instancesAreIndependent : Obligations.InstancesAreIndependent := by
  intro n k blocks blocks' hsame
  obtain ⟨t, hstep⟩ := step_next blocks[k]
  refine ⟨_, _, stepInstance_of_step hstep, stepInstance_of_step (hsame ▸ hstep), ?_, ?_, ?_⟩
  · simpa using hstep
  · simp
  · intro j hj
    simp [Fin.val_ne_of_ne hj.symm]

/-- Settles O46: the reset state has the manufactured TABLE, code OK and data 0. -/
theorem invariantHoldsAtReset : Obligations.InvariantHoldsAtReset :=
  ⟨rfl, reset_table_wf, rfl, rfl⟩

end Sys2Proof.Machine

/-!
PROOFS. The step as its decoded command (00_scope.md R12), and each command at the instruction, from every state.
-/

namespace Sys2Proof.Machine

open Sys2Proof.Claims

/-! ## The step -/

/-- What the decoder reads from a word of the opcode table. -/
theorem decodeTableWord_eq_some {nbits w : Nat} {i : Instr} :
    decodeTableWord nbits w = some i ↔ decode (tableWord nbits w) = .ok i := by
  unfold decodeTableWord
  cases decode (tableWord nbits w) <;> simp

/-- The all-zero word of an idle port is no command (30_encoding.md R67). -/
theorem decode_idleWord : decode idleWord = .error (.unassignedOp 0) := rfl

/-! ## DECANG -/

/-- DECANG of a passing frame: the checksum goes to ACC, the flag is set, and the shared answer follows (41_angle.md
R130). -/
theorem exec_decang_of_passes {f : Frame} {s : State} (hvalid : frameValid s.table f)
    (hstatus : f.b3.getLsbD 1 = true) :
    exec (.decang f) s = .next
      (((s.setAcc (sum5 s.table f.b0 f.b1 f.b2 f.b3 f.b4)).setLastValid true).respondAngle
        (position f)) := by
  rw [exec_decang, if_pos ⟨hvalid, hstatus⟩, afterFlag_eq, decide_eq_true hvalid]

/-- A DECANG that answers OK had a passing frame and a set RES, and answers the position and its angle. -/
theorem exec_decang_ok {f : Frame} {s t : State} (h : exec (.decang f) s = .next t)
    (hok : t.rspCode = .ok) :
    frameValid s.table f ∧ f.b3.getLsbD 1 = true ∧ s.res ≠ 0 ∧
      t.rspData = angleData (framePosition f) s.res := by
  rcases execDecang_cases h with ⟨_, rfl⟩ | ⟨_, _, rfl⟩ | ⟨hpass, hres, rfl⟩
  · cases hok
  · cases hok
  · obtain ⟨hvalid, hstatus⟩ := (framePasses_iff s.table f).1 hpass
    exact ⟨hvalid, hstatus, hres, rfl⟩

/-- Bit 3 of the position of a frame is the status bit of byte 3 (R124, R126). -/
theorem framePosition_bit_three (f : Frame) : (framePosition f).getLsbD 3 = f.b3.getLsbD 1 := by
  simp only [framePosition, BitVec.getLsbD_extractLsb', BitVec.getLsbD_append]
  simp

/-- Bit 35 of the data of a decoded position is bit 3 of the position. -/
theorem angleData_bit_35 (p : Position) (r : Resolution) :
    (angleData p r).getLsbD 35 = p.getLsbD 3 := by
  simp only [angleData, BitVec.getLsbD_setWidth, BitVec.getLsbD_append]
  simp

/-- CONVERT on a set RES answers the position and its angle (R135). -/
theorem exec_convert_of_res_ne_zero {p : Position} {s : State} (hres : s.res ≠ 0) :
    exec (.convert p) s = .next (s.respond .ok (angleData p s.res)) :=
  congrArg Host.Outcome.next (if_neg hres)

/-! ## The obligations -/

/-- Settles O3, by the word at the port (`step_of_decode_ok`). -/
theorem stepRunsTheDecodedCommand : Obligations.StepRunsTheDecodedCommand := by
  refine ⟨fun s w i hin hdec _ => step_of_decode_ok hin hdec, fun s nbits w i h => ?_⟩
  exact step_of_decode_ok (s.nextInput_present _) (decodeTableWord_eq_some.1 h)

/-- Settles O4: an idle port shows the all-zero word, which the decoder rejects. -/
theorem idlePortIsAnsweredIllegal : Obligations.IdlePortIsAnsweredIllegal := by
  intro s hs
  have htake : s.takeInput = s := by
    rw [State.takeInput, hs, List.tail_nil, ← hs]
  rw [step_of_decode_error (s.nextInput_nil hs) decode_idleWord, htake]
  rfl

/-- Settles O12 (`exec_chksum`): the checksum is by definition the fold of R106. -/
theorem chksumAnswersTheFold : Obligations.ChksumAnswersTheFold :=
  fun x s => ⟨checksum s.table x, rfl, exec_chksum x s⟩

/-- Settles O19: a passing frame reaches the shared answer, which on a set RES is the position and its angle. -/
theorem decangAnswersPositionAndAngle : Obligations.DecangAnswersPositionAndAngle := by
  intro f s hvalid hstatus hres
  rw [exec_decang_of_passes hvalid hstatus, respondAngle_eq, if_neg (by exact hres)]
  rfl

/-- Settles O21: a passing frame reaches the shared answer, which on an unset RES is UNINIT. -/
theorem decangWithUnsetResolutionIsUninit : Obligations.DecangWithUnsetResolutionIsUninit := by
  intro f s hvalid hstatus hres
  rw [exec_decang_of_passes hvalid hstatus, respondAngle_eq, if_pos (by exact hres)]
  rfl

/-- Settles O23 (`exec_convert_of_res_ne_zero`), with the data written as its fields. -/
theorem convertAnswersPositionAndAngle : Obligations.ConvertAnswersPositionAndAngle := by
  intro p s hres
  rw [exec_convert_of_res_ne_zero hres, angleData_eq_append]
  rfl

/-- Settles O26: an OK answer had its status bit set (`exec_decang_ok`), and that bit is bit 3 of the position. -/
theorem decodedPositionHasBitThreeSet : Obligations.DecodedPositionHasBitThreeSet := by
  intro f s t h hok
  obtain ⟨-, hstatus, -, hdata⟩ := exec_decang_ok h hok
  have hbit : (framePosition f).getLsbD 3 = true := (framePosition_bit_three f).trans hstatus
  exact ⟨hbit, by rw [hdata, angleData_bit_35, hbit]⟩

/-- Settles O34: a DECANG that answers OK found RES set, and CONVERT then answers the same data. -/
theorem decangAndConvertAgree : Obligations.DecangAndConvertAgree := by
  intro f s t h hok
  obtain ⟨-, -, hres, hdata⟩ := exec_decang_ok h hok
  exact ⟨_, exec_convert_of_res_ne_zero hres, rfl, hdata.symm⟩

/-- Settles O37: DECMT's response is the counter, which is bytes 0 and 1. -/
theorem decmtDependsOnTwoBytes : Obligations.DecmtDependsOnTwoBytes := by
  intro f g s s' h0 h1
  refine ⟨_, _, exec_decmt f s, exec_decmt g s', rfl, ?_⟩
  simp [multiturn, h0, h1]

/-- Settles O38, by INIT's answers in order (`exec_init`). -/
theorem initSetsTheResolution : Obligations.InitSetsTheResolution := by
  intro r s hr hres
  rw [exec_init, if_neg hr, if_neg (not_not.2 hres)]
  rfl

/-- Settles O40 (`exec_rdvalid`). -/
theorem rdvalidAnswersTheFlag : Obligations.RdvalidAnswersTheFlag := exec_rdvalid

end Sys2Proof.Machine

/-!
PROOFS. The checksum as arithmetic of polynomials over the two-element field (40_checksum.md R103, R108 to R112): a
bit string stands for a polynomial, TABLE multiplies by `z^8` modulo the generator, and so does the fold.
-/

namespace Sys2Proof.Machine

open Sys2Proof.Claims Polynomial

/-! ## Bit strings as polynomials -/

/-- The coefficients of a bit string's polynomial are its bits. -/
theorem coeff_toPoly {n : Nat} (v : BitVec n) (m : Nat) :
    (toPoly v).coeff m = if v.getLsbD m then 1 else 0 := by
  have hterm : ∀ i, (if v.getLsbD i then (X : (ZMod 2)[X]) ^ i else 0).coeff m =
      if m = i then if v.getLsbD m then 1 else 0 else 0 := by
    intro i
    split <;> simp_all [coeff_X_pow]
  rw [toPoly, finsetSum_coeff, Finset.sum_congr rfl (fun i _ => hterm i), Finset.sum_ite_eq]
  split
  · rfl
  · rename_i hm
    rw [BitVec.getLsbD_of_ge v m (by simpa using hm)]
    rfl

/-- A bit string is determined by its polynomial. -/
theorem toPoly_injective {n : Nat} : Function.Injective (toPoly (n := n)) := by
  intro v w h
  apply BitVec.eq_of_getLsbD_eq
  intro i _
  have hi := congrArg (fun p => p.coeff i) h
  simp only [coeff_toPoly] at hi
  cases hv : v.getLsbD i <;> cases hw : w.getLsbD i <;> simp_all

@[simp] theorem toPoly_zero {n : Nat} : toPoly (0#n) = 0 := by
  ext m
  simp [coeff_toPoly]

/-- XOR is addition of polynomials. -/
theorem toPoly_xor {n : Nat} (v w : BitVec n) : toPoly (v ^^^ w) = toPoly v + toPoly w := by
  ext m
  rw [coeff_add, coeff_toPoly, coeff_toPoly, coeff_toPoly, BitVec.getLsbD_xor]
  cases v.getLsbD m <;> cases w.getLsbD m <;> decide

/-- The polynomial of a concatenation. -/
theorem toPoly_append {m n : Nat} (v : BitVec m) (w : BitVec n) :
    toPoly (v ++ w) = toPoly v * X ^ n + toPoly w := by
  ext i
  rw [coeff_add, coeff_mul_X_pow', coeff_toPoly, coeff_toPoly, coeff_toPoly, BitVec.getLsbD_append]
  by_cases hi : i < n
  · simp [hi]
  · simp [hi, Nat.not_lt.1 hi]

/-- The bits of a number with one bit set. -/
theorem getLsbD_one_shiftLeft {n k : Nat} (hk : k < n) (i : Nat) :
    (1#n <<< k).getLsbD i = decide (i = k) := by
  rw [Bool.eq_iff_iff]
  simp
  omega

/-- One bit is a power of `z`. -/
theorem toPoly_one_shiftLeft {n k : Nat} (hk : k < n) : toPoly (1#n <<< k) = X ^ k := by
  ext m
  simp [coeff_toPoly, coeff_X_pow, getLsbD_one_shiftLeft hk]

/-- Shifting left by one multiplies by `z`, but for the bit shifted out. -/
theorem toPoly_shiftLeft_one (t : Byte) :
    toPoly (t <<< 1) = X * toPoly t + if t.getLsbD 7 then X ^ 8 else 0 := by
  have hhigh : (if t.getLsbD 7 then (X : (ZMod 2)[X]) ^ 8 else 0) =
      C (if t.getLsbD 7 then 1 else 0) * X ^ 8 := by
    split <;> simp
  ext m
  rw [hhigh, coeff_add, coeff_C_mul_X_pow, coeff_toPoly]
  cases m with
  | zero => simp
  | succ m =>
    rw [coeff_X_mul, coeff_toPoly]
    rcases Nat.lt_trichotomy m 7 with hm | rfl | hm
    · simp [show m + 1 < 8 by omega, show m + 1 ≠ 8 by omega,
        BitVec.getLsbD_eq_getElem (show m < 8 by omega)]
    · rw [BitVec.getLsbD_of_ge (t <<< 1) (7 + 1) le_rfl]
      cases t.getLsbD 7 <;> decide
    · simp [show ¬ m + 1 < 8 by omega, show m + 1 ≠ 8 by omega,
        BitVec.getLsbD_of_ge t m (by omega)]

theorem degree_toPoly_lt {n : Nat} (v : BitVec n) : (toPoly v).degree < n := by
  rw [degree_lt_iff_coeff_zero]
  intro m hm
  rw [coeff_toPoly, BitVec.getLsbD_of_ge v m hm]
  rfl

/-! ## The generator -/

/-- `g(z)` is `z^8` and the bits of 0x97 (R101). -/
theorem generator_eq : generator = X ^ 8 + toPoly crcPoly := by
  have hpoly : toPoly crcPoly = X ^ 7 + X ^ 4 + X ^ 2 + X + 1 := by
    simp [toPoly, Finset.sum_range_succ, crcPoly]
    ring
  rw [hpoly, generator]
  ring

theorem degree_generator : generator.degree = 8 := by
  rw [generator_eq, degree_add_eq_left_of_degree_lt, degree_X_pow]
  · rfl
  · rw [degree_X_pow]
    exact degree_toPoly_lt crcPoly

theorem monic_generator : generator.Monic := by
  rw [generator_eq]
  exact monic_X_pow_add (degree_toPoly_lt crcPoly)

/-- A byte congruent to a polynomial is its remainder: its degree is below that of the generator. -/
theorem toPoly_eq_modByMonic {p : (ZMod 2)[X]} {v : Byte} (h : generator ∣ p - toPoly v) :
    toPoly v = p %ₘ generator := by
  have hself : toPoly v %ₘ generator = toPoly v := by
    rw [modByMonic_eq_self_iff monic_generator, degree_generator]
    exact degree_toPoly_lt v
  rw [modByMonic_eq_of_dvd_sub monic_generator h, hself]

/-- No power of `z` is 0 modulo the generator: its constant coefficient is 1. -/
theorem X_pow_modByMonic_generator_ne_zero (n : Nat) : (X ^ n : (ZMod 2)[X]) %ₘ generator ≠ 0 := by
  rw [Ne, modByMonic_eq_zero_iff_dvd monic_generator]
  have hcoprime : IsCoprime generator (X : (ZMod 2)[X]) :=
    ⟨1, -(X ^ 7 + X ^ 6 + X ^ 3 + X + 1), by rw [generator]; ring⟩
  intro hdvd
  have hunit : IsUnit generator := (hcoprime.pow_right (n := n)).isUnit_of_dvd hdvd
  have hdegree := degree_eq_zero_of_isUnit hunit
  rw [degree_generator] at hdegree
  exact absurd hdegree (by decide)

/-! ## TABLE -/

/-- One shift step of R111 multiplies by `z` modulo the generator. -/
theorem crcBit_residue (t : Byte) : generator ∣ X * toPoly t - toPoly (crcBit t) := by
  have hmsb : t.msb = t.getLsbD 7 := rfl
  rw [crcBit, hmsb, apply_ite toPoly, toPoly_xor, toPoly_shiftLeft_one]
  cases t.getLsbD 7 with
  | false => simp
  | true => exact ⟨-1, by rw [generator_eq]; simp; ring⟩

/-- `n` shift steps multiply by `z ^ n` modulo the generator. -/
theorem crcBits_residue (n : Nat) (t : Byte) :
    generator ∣ X ^ n * toPoly t - toPoly (crcBits n t) := by
  induction n generalizing t with
  | zero => simp [crcBits]
  | succ n ih =>
    have hsplit : X ^ (n + 1) * toPoly t - toPoly (crcBits (n + 1) t) =
        X ^ n * (X * toPoly t - toPoly (crcBit t)) +
          (X ^ n * toPoly (crcBit t) - toPoly (crcBits n (crcBit t))) := by
      rw [crcBits]
      ring
    rw [hsplit]
    exact dvd_add (dvd_mul_of_dvd_right (crcBit_residue t) _) (ih (crcBit t))

/-- The table of R102 is the construction of R103, entry by entry. -/
theorem romByte_eq_crcBits : ∀ i : Byte, romByte i = crcBits 8 i := by
  decide +kernel

/-- TABLE multiplies by `z ^ 8` modulo the generator. -/
theorem romByte_residue (i : Byte) : generator ∣ X ^ 8 * toPoly i - toPoly (romByte i) := by
  rw [romByte_eq_crcBits]
  exact crcBits_residue 8 i

/-- A TABLE entry is the remainder that its index gives. -/
theorem toPoly_romByte (i : Byte) : toPoly (romByte i) = (toPoly i * X ^ 8) %ₘ generator := by
  apply toPoly_eq_modByMonic
  rw [mul_comm]
  exact romByte_residue i

/-! ## The fold -/

/-- The polynomial of a sequence of bytes, the first most significant. -/
noncomputable def bytesPoly (bytes : List Byte) : (ZMod 2)[X] :=
  bytes.foldl (fun p b => p * X ^ 8 + toPoly b) 0

/-- The accumulator after some bytes is their polynomial times `z ^ 8`, modulo the generator (R111). -/
theorem accAfter_residue (bytes : List Byte) :
    generator ∣ bytesPoly bytes * X ^ 8 - toPoly (accAfter Memory.manufactured bytes) := by
  induction bytes using List.reverseRecOn with
  | nil => simp [bytesPoly, accAfter, crcInit]
  | append_singleton bytes b ih =>
    have hpoly : bytesPoly (bytes ++ [b]) = bytesPoly bytes * X ^ 8 + toPoly b := by
      simp [bytesPoly]
    have hacc : accAfter Memory.manufactured (bytes ++ [b]) =
        romByte (accAfter Memory.manufactured bytes ^^^ b) := by
      rw [accAfter_append]
      rfl
    have hsplit : bytesPoly (bytes ++ [b]) * X ^ 8 -
        toPoly (accAfter Memory.manufactured (bytes ++ [b])) =
          (bytesPoly bytes * X ^ 8 - toPoly (accAfter Memory.manufactured bytes)) * X ^ 8 +
          (X ^ 8 * toPoly (accAfter Memory.manufactured bytes ^^^ b) -
            toPoly (romByte (accAfter Memory.manufactured bytes ^^^ b))) := by
      rw [hpoly, hacc, toPoly_xor]
      ring
    rw [hsplit]
    exact dvd_add (dvd_mul_of_dvd_left ih _) (romByte_residue _)

/-- Bytes side by side have the polynomial of their sequence. -/
theorem bytesPoly_eight (b7 b6 b5 b4 b3 b2 b1 b0 : Byte) :
    bytesPoly [b7, b6, b5, b4, b3, b2, b1, b0] =
      toPoly (b7 ++ b6 ++ b5 ++ b4 ++ b3 ++ b2 ++ b1 ++ b0) := by
  rw [toPoly_append, toPoly_append, toPoly_append, toPoly_append, toPoly_append, toPoly_append,
    toPoly_append]
  simp [bytesPoly]

/-- The eight bytes of an operand have the operand's polynomial (20_memory.md R43). -/
theorem bytesPoly_bytesMsbFirst (x : Word64) : bytesPoly (bytesMsbFirst x) = toPoly x := by
  have hbytes : x.extractLsb' 56 8 ++ x.extractLsb' 48 8 ++ x.extractLsb' 40 8 ++ x.extractLsb' 32 8 ++
      x.extractLsb' 24 8 ++ x.extractLsb' 16 8 ++ x.extractLsb' 8 8 ++ x.extractLsb' 0 8 = x := by
    apply BitVec.eq_of_getLsbD_eq
    intro i hi
    simp only [BitVec.getLsbD_extractLsb', BitVec.getLsbD_append]
    grind
  exact (bytesPoly_eight _ _ _ _ _ _ _ _).trans (congrArg toPoly hbytes)

/-- The checksum is the remainder of its operand times `z ^ 8` (R111). -/
theorem toPoly_checksum (x : Word64) :
    toPoly (checksum Memory.manufactured x) = (toPoly x * X ^ 8) %ₘ generator := by
  apply toPoly_eq_modByMonic
  rw [checksum_eq, ← bytesPoly_bytesMsbFirst]
  exact accAfter_residue (bytesMsbFirst x)

/-- The checksum is linear over XOR (R110), as a remainder is over addition. -/
theorem checksum_xor (a b : Word64) :
    checksum Memory.manufactured (a ^^^ b) =
      checksum Memory.manufactured a ^^^ checksum Memory.manufactured b := by
  apply toPoly_injective
  rw [toPoly_xor, toPoly_checksum, toPoly_checksum, toPoly_checksum, toPoly_xor, add_mul,
    add_modByMonic]

/-- TABLE is linear over XOR (R110). -/
theorem romByte_xor (i j : Byte) : romByte (i ^^^ j) = romByte i ^^^ romByte j := by
  apply toPoly_injective
  rw [toPoly_xor, toPoly_romByte, toPoly_romByte, toPoly_romByte, toPoly_xor, add_mul,
    add_modByMonic]

/-- The checksum of one bit is a power of `z` modulo the generator (R112). -/
theorem toPoly_checksum_one_shiftLeft {k : Nat} (hk : k < 64) :
    toPoly (checksum Memory.manufactured (1#64 <<< k)) = X ^ (k + 8) %ₘ generator := by
  rw [toPoly_checksum, toPoly_one_shiftLeft hk, pow_add]

/-- The checksum of one bit is not 0 (R112). -/
theorem checksum_one_shiftLeft_ne_zero {k : Nat} (hk : k < 64) :
    checksum Memory.manufactured (1#64 <<< k) ≠ 0 := by
  intro hzero
  have hpow := toPoly_checksum_one_shiftLeft hk
  rw [hzero] at hpow
  exact X_pow_modByMonic_generator_ne_zero (k + 8) (hpow.symm.trans toPoly_zero)

/-! ## The bitwise loop and leading zeros -/

/-- The shift steps of R103 are an iteration of the step that R111 writes out. -/
theorem crcBits_eq_iterate (n : Nat) (t : Byte) :
    crcBits n t = (fun a : Byte => if a.getLsbD 7 then (a <<< 1) ^^^ 0x97 else a <<< 1)^[n] t := by
  induction n generalizing t with
  | zero => rfl
  | succ n ih => exact ih (crcBit t)

/-- An accumulator step over the manufactured TABLE is the bitwise loop over one byte (R111). -/
theorem accStep_manufactured : accStep Memory.manufactured = bitwiseByte := by
  funext acc b
  exact (romByte_eq_crcBits (acc ^^^ b)).trans (crcBits_eq_iterate 8 (acc ^^^ b))

/-- A zero byte leaves a zero accumulator 0 (R108). -/
theorem tableRead_manufactured_zero : tableRead Memory.manufactured 0 = 0 := rfl

/-- The eight bytes of a widened 40-bit operand are three zero bytes and its own five (20_memory.md R43). -/
theorem bytesMsbFirst_setWidth (v : BitVec 40) :
    bytesMsbFirst (v.setWidth 64) =
      [0, 0, 0, v.extractLsb' 32 8, v.extractLsb' 24 8, v.extractLsb' 16 8, v.extractLsb' 8 8,
        v.extractLsb' 0 8] := by
  have hv : v.extractLsb' 32 8 ++ v.extractLsb' 24 8 ++ v.extractLsb' 16 8 ++ v.extractLsb' 8 8 ++
      v.extractLsb' 0 8 = v := by
    apply BitVec.eq_of_getLsbD_eq
    intro i hi
    simp only [BitVec.getLsbD_extractLsb', BitVec.getLsbD_append]
    grind
  conv_lhs => rw [← hv]
  exact bytesMsbFirst_pack40 _ _ _ _ _

/-! ## The obligations -/

/-- Settles O17 (`toPoly_checksum`), the loop byte by byte (`accStep_manufactured`). -/
theorem checksumIsThePolynomialRemainder : Obligations.ChecksumIsThePolynomialRemainder := by
  refine fun x => ⟨toPoly_checksum x, ?_⟩
  rw [checksum_eq, accAfter, accStep_manufactured]
  rfl

/-- Settles O16 (`romByte_xor`, `checksum_xor`). -/
theorem checksumIsXorLinear : Obligations.ChecksumIsXorLinear :=
  ⟨romByte_xor, checksum_xor⟩

/-- Settles O18: linearity, and the power of `z` that one bit gives. -/
theorem everySingleBitChangesTheChecksum : Obligations.EverySingleBitChangesTheChecksum :=
  fun x k hk => ⟨checksum_xor x (1#64 <<< k), toPoly_checksum_one_shiftLeft hk,
    checksum_one_shiftLeft_ne_zero hk⟩

/-- Settles O15: the three zero bytes of a widened operand leave the accumulator 0. -/
theorem leadingZeroBytesDoNotCount : Obligations.LeadingZeroBytesDoNotCount := by
  refine ⟨tableRead_manufactured_zero, ?_, fun v => ?_⟩
  · exact toPoly_injective (by rw [toPoly_checksum]; simp)
  · rw [checksum_eq, bytesMsbFirst_setWidth]
    rfl

/-- Settles O14: the table by its construction (`romByte_eq_crcBits`), which is the iteration of R103. -/
theorem tableIsTheMsbFirstConstruction : Obligations.TableIsTheMsbFirstConstruction :=
  fun i => (romByte_eq_crcBits i).trans (crcBits_eq_iterate 8 i)

end Sys2Proof.Machine

/-!
PROOFS. Corrupted frames (41_angle.md R133, R134): flipping one bit of a frame flips one bit of its checksum
operand or of byte 5, so the checksum no longer matches.
-/

namespace Sys2Proof.Machine

open Sys2Proof.Claims

/-! ## The checksum operand and byte 5 as fields of the frame's word -/

theorem packed_eq_word (f : Frame) : packed f = (f.word.extractLsb' 8 40).setWidth 64 := by
  apply BitVec.eq_of_getLsbD_eq
  intro i hi
  simp only [packed, pack40, Frame.word, BitVec.getLsbD_setWidth, BitVec.getLsbD_extractLsb',
    BitVec.getLsbD_append]
  grind

theorem b5_eq_word (f : Frame) : f.b5 = f.word.extractLsb' 0 8 :=
  BitVec.extractLsb'_append_eq_right.symm

/-- The checksum operand of a frame whose word differs by `e`. -/
theorem packed_ofWord_xor (f : Frame) (e : BitVec 48) :
    packed (.ofWord (f.word ^^^ e)) = packed f ^^^ (e.extractLsb' 8 40).setWidth 64 := by
  rw [packed_eq_word, packed_eq_word, Frame.word_ofWord, BitVec.extractLsb'_xor,
    BitVec.setWidth_xor]

/-- Byte 5 of a frame whose word differs by `e`. -/
theorem b5_ofWord_xor (f : Frame) (e : BitVec 48) :
    (Frame.ofWord (f.word ^^^ e)).b5 = f.b5 ^^^ e.extractLsb' 0 8 := by
  rw [b5_eq_word, b5_eq_word, Frame.word_ofWord, BitVec.extractLsb'_xor]

/-- Of two frames that differ by `e`, both match their checksum only if `e` itself does (40_checksum.md R110). -/
theorem checksum_difference_of_valid {f : Frame} {e : BitVec 48}
    (hvalid : frameValid Memory.manufactured f)
    (hvalid' : frameValid Memory.manufactured (.ofWord (f.word ^^^ e))) :
    checksum Memory.manufactured ((e.extractLsb' 8 40).setWidth 64) = e.extractLsb' 0 8 := by
  rw [← checksumMatches_packed_iff, checksumMatches_iff] at hvalid hvalid'
  rw [packed_ofWord_xor, checksum_xor, b5_ofWord_xor, ← hvalid, ← BitVec.not_xor_left] at hvalid'
  exact (BitVec.xor_right_inj _).1 (BitVec.not_inj.1 hvalid')

/-- A single bit does not match its own checksum: above byte 5 its checksum is not 0 (R112), and in byte 5 the
checksum of 0 is. -/
theorem checksum_single_bit_ne {k : Nat} (hk : k < 48) :
    checksum Memory.manufactured (((1#48 <<< k).extractLsb' 8 40).setWidth 64) ≠
      (1#48 <<< k).extractLsb' 0 8 := by
  by_cases hlow : k < 8
  · have hhigh : ((1#48 <<< k).extractLsb' 8 40).setWidth 64 = 0#64 := by
      apply BitVec.eq_of_getLsbD_eq
      intro i hi
      simp [getLsbD_one_shiftLeft hk]
      omega
    have hbyte : (1#48 <<< k).extractLsb' 0 8 = 1#8 <<< k := by
      apply BitVec.eq_of_getLsbD_eq
      intro i hi
      rw [BitVec.getLsbD_extractLsb', getLsbD_one_shiftLeft hk, getLsbD_one_shiftLeft hlow]
      simp [hi]
    have hzero : checksum Memory.manufactured 0#64 = 0#8 := rfl
    rw [hhigh, hbyte, hzero]
    intro hshift
    have hbit := congrArg (fun v => v.getLsbD k) hshift
    simp [getLsbD_one_shiftLeft hlow] at hbit
  · have hhigh : ((1#48 <<< k).extractLsb' 8 40).setWidth 64 = 1#64 <<< (k - 8) := by
      apply BitVec.eq_of_getLsbD_eq
      intro i hi
      simp only [BitVec.getLsbD_setWidth, BitVec.getLsbD_extractLsb', getLsbD_one_shiftLeft hk,
        getLsbD_one_shiftLeft (show k - 8 < 64 by omega)]
      grind
    have hzero : (1#48 <<< k).extractLsb' 0 8 = 0#8 := by
      apply BitVec.eq_of_getLsbD_eq
      intro i hi
      simp [getLsbD_one_shiftLeft hk]
      omega
    rw [hhigh, hzero]
    exact checksum_one_shiftLeft_ne_zero (by omega)

/-- Flipping one bit of a frame that matches its checksum breaks the match (41_angle.md R133). -/
theorem not_frameValid_of_single_bit {f : Frame} {k : Nat} (hk : k < 48)
    (hvalid : frameValid Memory.manufactured f) :
    ¬ frameValid Memory.manufactured (.ofWord (f.word ^^^ (1#48 <<< k))) :=
  fun hvalid' => checksum_single_bit_ne hk (checksum_difference_of_valid hvalid hvalid')

/-! ## The status bit -/

/-- Clearing a status bit that is set flips bit 17 of the frame's word (R124, 30_encoding.md R63). -/
theorem clear_status_eq_flip {f : Frame} (hstatus : f.b3.getLsbD 1 = true) :
    { f with b3 := f.b3 &&& 0xFD } = Frame.ofWord (f.word ^^^ (1#48 <<< 17)) := by
  have hbyte : f.b3 &&& 0xFD = f.b3 ^^^ 0x02 := by
    apply BitVec.eq_of_getLsbD_eq
    intro i hi
    rw [BitVec.getLsbD_and, BitVec.getLsbD_xor]
    interval_cases i
    · exact (Bool.and_true _).trans (Bool.xor_false _).symm
    · rw [hstatus]; rfl
    all_goals exact (Bool.and_true _).trans (Bool.xor_false _).symm
  have hbit : 1#48 <<< 17 = 0#8 ++ 0#8 ++ 0#8 ++ 0x02#8 ++ 0#8 ++ 0#8 := rfl
  have hword : f.word ^^^ (1#48 <<< 17) = Frame.word { f with b3 := f.b3 ^^^ 0x02 } := by
    rw [hbit, Frame.word, BitVec.xor_append, BitVec.xor_append, BitVec.xor_append, BitVec.xor_append,
      BitVec.xor_append]
    simp [Frame.word]
  rw [hbyte, hword, Frame.ofWord_word]

/-- Clearing the mask of the status bit clears it. -/
theorem status_of_and_mask (b : Byte) : (b &&& 0xFD).getLsbD 1 = false := by
  rw [BitVec.getLsbD_and]
  exact Bool.and_false _

/-! ## The answer -/

/-- An intact ROM is the manufactured TABLE. -/
theorem table_of_romIntact {s : State} (h : s.romIntact = true) : s.table = Memory.manufactured :=
  eq_of_beq h

/-- A frame that does not match its checksum is answered FRAME_INVALID with LAST_VALID 0 (R125). -/
theorem exec_decang_of_not_valid {f : Frame} {s : State} (h : ¬ frameValid s.table f) :
    ∃ t, exec (.decang f) s = .next t ∧ t.rspCode = .frameInvalid ∧ t.lastValid = false := by
  obtain ⟨t, hexec, hcode, -, hflag, -⟩ := decangRefusesAFailingFrame f s (.inl h)
  exact ⟨t, hexec, hcode, Bool.eq_false_iff.2 (hflag.not.2 h)⟩

/-! ## The obligations -/

/-- Settles O32: the flipped frame does not match (`not_frameValid_of_single_bit`). -/
theorem singleBitCorruptionIsDetected : Obligations.SingleBitCorruptionIsDetected := by
  intro f s k hrom hvalid _ hk
  rw [table_of_romIntact hrom] at hvalid
  apply exec_decang_of_not_valid
  rw [table_of_romIntact hrom]
  exact not_frameValid_of_single_bit hk hvalid

/-- Settles O33: with byte 5 recomputed the frame matches and its status bit fails it; with byte 5 as it was, the
cleared bit is a single flipped bit. -/
theorem clearedStatusBitFailsTheFrame : Obligations.ClearedStatusBitFailsTheFrame := by
  intro f s hrom hvalid hstatus
  refine ⟨?_, ?_⟩
  · obtain ⟨t, hexec, hcode, -, hflag, -⟩ := decangRefusesAFailingFrame { f with
        b3 := f.b3 &&& 0xFD
        b5 := ~~~(sum5 s.table f.b0 f.b1 f.b2 (f.b3 &&& 0xFD) f.b4) } s (.inr (status_of_and_mask f.b3))
    exact ⟨t, hexec, hcode, hflag.2 rfl⟩
  · rw [clear_status_eq_flip hstatus]
    exact singleBitCorruptionIsDetected f s 17 hrom hvalid hstatus (by decide)

end Sys2Proof.Machine

/-!
PROOFS. The assembler (30_encoding.md R70): the word of each line, and the spelling `OP:ARG` read back.
-/

namespace Sys2Proof.Machine

/-! ## Lines -/

/-- A line whose operand range is `P` encodes to its command's word in that range and to nothing outside it. -/
theorem map_encode_assemble {l : Source} {i : Instr} {w : CmdWord} {P : Prop} [Decidable P]
    (hwf : l.wellFormed = true ↔ P) (hinstr : instrOfSource l = some i) (hword : P → encode i = w) :
    (assemble l).map encode = if P then some w else none := by
  by_cases hP : P
  · rw [assemble, if_pos (hwf.2 hP), hinstr, if_pos hP, Option.map_some, hword hP]
  · rw [assemble_none (Bool.eq_false_iff.2 (hwf.not.2 hP)), if_neg hP, Option.map_none]

/-- A number below `2 ^ n` is the same operand at `n` bits, widened, and at 64 bits. -/
theorem setWidth_ofNat_of_lt {n x : Nat} (hn : n ≤ 64) (hx : x < 2 ^ n) :
    (BitVec.ofNat n x).setWidth 64 = BitVec.ofNat 64 x := by
  have hpow : (2 : Nat) ^ n ≤ 2 ^ 64 := Nat.pow_le_pow_right (by decide) hn
  apply BitVec.eq_of_toNat_eq
  rw [BitVec.toNat_setWidth, BitVec.toNat_ofNat, BitVec.toNat_ofNat, Nat.mod_eq_of_lt hx]

/-- The ARG of a frame given as one number below `2 ^ 48`. -/
theorem setWidth_word_ofNat {f : Nat} (hf : f < 2 ^ 48) :
    (Frame.ofWord (BitVec.ofNat 48 f)).word.setWidth 64 = BitVec.ofNat 64 f := by
  rw [Frame.word_ofWord, setWidth_ofNat_of_lt (by decide) hf]

/-- Six numbers are in the range of frame bytes when each is below 256. -/
theorem bytesOk_six_iff (b0 b1 b2 b3 b4 b5 : Nat) :
    bytesOk 6 [b0, b1, b2, b3, b4, b5] = true ↔
      b0 < 256 ∧ b1 < 256 ∧ b2 < 256 ∧ b3 < 256 ∧ b4 < 256 ∧ b5 < 256 := by
  simp [bytesOk]

/-- The word of a frame command: its OP, 16 zero bits, and the six bytes in receive order. -/
theorem op_append_setWidth_word (op b0 b1 b2 b3 b4 b5 : Byte) :
    op ++ (Frame.word ⟨b0, b1, b2, b3, b4, b5⟩).setWidth 64 =
      op ++ 0#16 ++ b0 ++ b1 ++ b2 ++ b3 ++ b4 ++ b5 := by
  apply BitVec.eq_of_getLsbD_eq
  intro i hi
  simp only [Frame.word, BitVec.getLsbD_setWidth, BitVec.getLsbD_append]
  grind

/-! ## The spelling of a word -/

@[simp] theorem length_hexDigits (n v : Nat) : (hexDigits n v).length = n := by
  induction n generalizing v with
  | zero => rfl
  | succ n ih => simp [hexDigits, ih]

/-- A hexadecimal digit reads back as its value. -/
theorem digitValue_hexDigit : ∀ d < 16, digitValue (hexDigit d) = some d := by
  decide

/-- Reading past the `n` digits of a number appends its `n` low digits to the value read so far. -/
theorem readDigits_hexDigits (n v acc : Nat) (rest : List Char) :
    readDigits 16 acc (hexDigits n v ++ rest) = readDigits 16 (acc * 16 ^ n + v % 16 ^ n) rest := by
  induction n generalizing v rest with
  | zero => simp [hexDigits, Nat.mod_one]
  | succ n ih =>
    have hdigit : v % 16 < 16 := Nat.mod_lt v (by decide)
    have hvalue : (acc * 16 ^ n + v / 16 % 16 ^ n) * 16 + v % 16 =
        acc * 16 ^ (n + 1) + v % 16 ^ (n + 1) := by
      rw [Nat.pow_succ', Nat.mod_mul]
      ring
    rw [hexDigits, List.append_assoc, ih, List.singleton_append, readDigits,
      digitValue_hexDigit _ hdigit]
    simp [hdigit, hvalue]

/-- The digits of a number that has at most `n` of them read back as the number. -/
theorem readDigits_hexDigits_of_lt {n v : Nat} (hv : v < 16 ^ n) :
    readDigits 16 0 (hexDigits n v) = some v := by
  have hread := readDigits_hexDigits n v 0 []
  rw [List.append_nil] at hread
  rw [hread, Nat.mod_eq_of_lt hv, readDigits, Nat.zero_mul, Nat.zero_add]

theorem length_spell (w : CmdWord) : (spell w).length = 19 := by
  simp [spell]

theorem take_spell (w : CmdWord) : (spell w).take 2 = hexDigits 2 (opField w).toNat :=
  List.take_left' (length_hexDigits 2 _)

theorem drop_spell (w : CmdWord) :
    (spell w).drop 2 = ':' :: hexDigits 16 (argField w).toNat :=
  List.drop_left' (length_hexDigits 2 _)

/-! ## The obligations -/

/-- Settles O54, line by line: the range of the operand (R70), and the command's word. -/
theorem assemblerEncodesEachLine : Obligations.AssemblerEncodesEachLine := by
  refine ⟨fun x => ?chksum, fun f => ?decangWord, fun p => ?convert, fun f => ?decmtWord, rfl,
    fun r => ?init, fun b0 b1 b2 b3 b4 b5 => ⟨?decang, ?decmt⟩⟩
  case chksum => exact map_encode_assemble decide_eq_true_iff rfl fun _ => rfl
  case decangWord =>
    exact map_encode_assemble decide_eq_true_iff rfl fun hf =>
      congrArg (0x02#8 ++ ·) (setWidth_word_ofNat hf)
  case convert =>
    exact map_encode_assemble decide_eq_true_iff rfl fun hp =>
      congrArg (0x03#8 ++ ·) (setWidth_ofNat_of_lt (by decide) hp)
  case decmtWord =>
    exact map_encode_assemble decide_eq_true_iff rfl fun hf =>
      congrArg (0x04#8 ++ ·) (setWidth_word_ofNat hf)
  case init =>
    exact map_encode_assemble decide_eq_true_iff rfl fun hr =>
      congrArg (0x06#8 ++ ·) (setWidth_ofNat_of_lt (by decide) hr)
  case decang =>
    exact map_encode_assemble (bytesOk_six_iff b0 b1 b2 b3 b4 b5) rfl fun _ =>
      op_append_setWidth_word 0x02 _ _ _ _ _ _
  case decmt =>
    exact map_encode_assemble (bytesOk_six_iff b0 b1 b2 b3 b4 b5) rfl fun _ =>
      op_append_setWidth_word 0x04 _ _ _ _ _ _

/-- Settles O55: the 2 and the 16 digits of a spelling read back as OP and ARG. -/
theorem spellingReadsBack : Obligations.SpellingReadsBack := by
  intro w
  refine ⟨length_spell w, ?_⟩
  have hop : readDigits 16 0 (hexDigits 2 (opField w).toNat) = some (opField w).toNat :=
    readDigits_hexDigits_of_lt (opField w).isLt
  have harg : readDigits 16 0 (hexDigits 16 (argField w).toNat) = some (argField w).toNat :=
    readDigits_hexDigits_of_lt (argField w).isLt
  simp [unspell, length_spell, take_spell, drop_spell, hop, harg, op_append_arg]

end Sys2Proof.Machine

/-!
PROOFS. The binary32 operations (00_scope.md R11, log entry 6): the classes of numbers, each operation by the classes
of its operands, and rounding to nearest even.
-/

namespace Sys2Proof.Machine

open Sys2Proof.Claims

/-! ## Classes of numbers -/

/-- A number is finite when it is neither a NaN nor an infinity. -/
theorem f32IsFinite_iff (a : F32) :
    f32IsFinite a = true ↔ f32IsNaN a = false ∧ f32IsInf a = false := by
  simp only [f32IsFinite, f32IsNaN, f32IsInf]
  grind

/-- A number is of at most one class: an infinity is no NaN, and a zero is neither. -/
theorem f32_class (a : F32) :
    (f32IsInf a = true → f32IsNaN a = false) ∧
      (f32IsZero a = true → f32IsNaN a = false ∧ f32IsInf a = false) := by
  simp only [f32IsNaN, f32IsInf, f32IsZero]
  grind

/-- A number that is no zero has units. -/
theorem f32Units_pos {a : F32} (h : f32IsZero a = false) : 0 < f32Units a := by
  simp only [f32IsZero, Bool.and_eq_false_iff, beq_eq_false_iff_ne] at h
  unfold f32Units
  split
  · omega
  · exact Nat.mul_pos (by omega) (Nat.two_pow_pos _)

theorem f32Units_of_f32IsZero {a : F32} (h : f32IsZero a = true) : f32Units a = 0 := by
  simp only [f32IsZero, Bool.and_eq_true, beq_iff_eq] at h
  rw [f32Units, if_pos h.1, h.2]

/-- A number of at least `2 ^ 23` units is normal. -/
theorem one_le_f32Exp {a : F32} (h : 2 ^ 23 ≤ f32Units a) : 1 ≤ f32Exp a := by
  have hfrac : f32Frac a < 2 ^ 23 := (a.extractLsb' 0 23).isLt
  unfold f32Units at h
  split at h <;> omega

/-! ## Packed results -/

theorem lt_of_le_infMagnitude {m : Nat} (h : m ≤ infMagnitude) : m < 2 ^ 31 := by
  unfold infMagnitude at h
  omega

theorem not_f32IsNaN_pack {sign : Bool} {m : Nat} (h : m ≤ infMagnitude) :
    f32IsNaN (f32Pack sign m) = false := by
  have hlt := lt_of_le_infMagnitude h
  rw [f32IsNaN, f32Exp_pack hlt, f32Frac_pack hlt]
  unfold infMagnitude at h
  simp
  omega

theorem f32IsInf_pack {sign : Bool} {m : Nat} (h : m ≤ infMagnitude) :
    f32IsInf (f32Pack sign m) = true ↔ m = infMagnitude := by
  have hlt := lt_of_le_infMagnitude h
  rw [f32IsInf, f32Exp_pack hlt, f32Frac_pack hlt]
  unfold infMagnitude at *
  simp
  omega

theorem f32IsZero_pack_zero (sign : Bool) : f32IsZero (f32Pack sign 0) = true := by
  cases sign <;> decide

/-- The NaN of an operation is a NaN, whatever its free bits are (log entry 7). -/
theorem f32IsNaN_quietNaN (a b : F32) : f32IsNaN (quietNaN a b) = true := by
  have hexp : (quietNaN a b).extractLsb' 23 8 = 0xFF#8 := by
    apply BitVec.eq_of_getLsbD_eq
    intro i hi
    simp only [quietNaN, BitVec.getLsbD_extractLsb', BitVec.getLsbD_append]
    interval_cases i <;> rfl
  have hquiet : ((quietNaN a b).extractLsb' 0 23).getLsbD 22 = true := by
    simp only [quietNaN, BitVec.getLsbD_extractLsb', BitVec.getLsbD_append]
    rfl
  have hfrac : f32Frac (quietNaN a b) ≠ 0 := by
    intro hzero
    rw [BitVec.eq_of_toNat_eq (y := 0#23) hzero] at hquiet
    exact absurd hquiet (by decide)
  simp [f32IsNaN, f32Exp, hexp, hfrac]

/-- The last bit of an encoding is the last bit of its magnitude. -/
theorem getLsbD_zero_pack {sign : Bool} {m : Nat} :
    (f32Pack sign m).getLsbD 0 = false ↔ m % 2 = 0 := by
  rw [f32Pack, BitVec.getLsbD_append, BitVec.getLsbD_ofNat]
  simp

/-! ## Each operation by the classes of its operands -/

/-- A product is a NaN, an infinity, or the rounded product of two finite numbers. -/
theorem fmul32_cases (a b : F32) :
    ((f32IsNaN a = true ∨ f32IsNaN b = true ∨ (f32IsInf a = true ∧ f32IsZero b = true) ∨
        (f32IsZero a = true ∧ f32IsInf b = true)) ∧ fmul32 a b = quietNaN a b) ∨
    ((f32IsNaN a = false ∧ f32IsNaN b = false ∧
        ((f32IsInf a = true ∧ f32IsZero b = false) ∨ (f32IsZero a = false ∧ f32IsInf b = true))) ∧
      fmul32 a b = f32Pack (f32Sign a ^^ f32Sign b) infMagnitude) ∨
    ((f32IsFinite a = true ∧ f32IsFinite b = true) ∧
      fmul32 a b = f32Pack (f32Sign a ^^ f32Sign b)
        (roundMagnitude (f32Units a * f32Units b) (2 ^ 149))) := by
  rw [f32IsFinite_iff, f32IsFinite_iff]
  simp only [fmul32, Bool.or_eq_true]
  split
  · exact .inl ⟨by tauto, rfl⟩
  split
  · split
    · exact .inl ⟨by grind [f32_class], rfl⟩
    · exact .inr (.inl ⟨by grind [f32_class], rfl⟩)
  · exact .inr (.inr ⟨by grind [f32_class], rfl⟩)

/-- A quotient is a NaN, an infinity, a zero, or the rounded quotient of two finite numbers. -/
theorem fdiv32_cases (a b : F32) :
    ((f32IsNaN a = true ∨ f32IsNaN b = true ∨ (f32IsInf a = true ∧ f32IsInf b = true) ∨
        (f32IsZero a = true ∧ f32IsZero b = true)) ∧ fdiv32 a b = quietNaN a b) ∨
    (((f32IsInf a = true ∧ f32IsFinite b = true) ∨
        (f32IsFinite a = true ∧ f32IsZero a = false ∧ f32IsZero b = true)) ∧
      fdiv32 a b = f32Pack (f32Sign a ^^ f32Sign b) infMagnitude) ∨
    ((f32IsFinite a = true ∧ f32IsInf b = true) ∧
      fdiv32 a b = f32Pack (f32Sign a ^^ f32Sign b) 0) ∨
    ((f32IsFinite a = true ∧ f32IsFinite b = true ∧ f32IsZero b = false) ∧
      fdiv32 a b = f32Pack (f32Sign a ^^ f32Sign b)
        (roundMagnitude (f32Units a * 2 ^ 149) (f32Units b))) := by
  rw [f32IsFinite_iff, f32IsFinite_iff]
  simp only [fdiv32, Bool.or_eq_true]
  split
  · exact .inl ⟨by tauto, rfl⟩
  split
  · split
    · exact .inl ⟨by tauto, rfl⟩
    · exact .inr (.inl ⟨by grind [f32_class], rfl⟩)
  split
  · exact .inr (.inr (.inl ⟨by grind [f32_class], rfl⟩))
  split
  · split
    · exact .inl ⟨by tauto, rfl⟩
    · exact .inr (.inl ⟨by grind [f32_class], rfl⟩)
  · exact .inr (.inr (.inr ⟨by grind [f32_class], rfl⟩))

/-! ## Operations on finite numbers -/

theorem fmul32_of_finite {a b : F32} (ha : f32IsFinite a = true) (hb : f32IsFinite b = true) :
    fmul32 a b = f32Pack (f32Sign a ^^ f32Sign b)
      (roundMagnitude (f32Units a * f32Units b) (2 ^ 149)) := by
  obtain ⟨hna, hia⟩ := (f32IsFinite_iff a).1 ha
  obtain ⟨hnb, hib⟩ := (f32IsFinite_iff b).1 hb
  simp [fmul32, hna, hnb, hia, hib]

theorem fdiv32_of_finite {a b : F32} (ha : f32IsFinite a = true) (hb : f32IsFinite b = true)
    (hzb : f32IsZero b = false) :
    fdiv32 a b = f32Pack (f32Sign a ^^ f32Sign b)
      (roundMagnitude (f32Units a * 2 ^ 149) (f32Units b)) := by
  obtain ⟨hna, hia⟩ := (f32IsFinite_iff a).1 ha
  obtain ⟨hnb, hib⟩ := (f32IsFinite_iff b).1 hb
  simp [fdiv32, hna, hnb, hia, hib, hzb]

/-! ## Rounded results -/

section Rounded

variable {n d : Nat} (sign : Bool)

theorem f32Units_round : f32Units (f32Pack sign (roundMagnitude n d)) =
    magnitudeUnits (roundMagnitude n d) :=
  f32Units_pack (lt_of_le_infMagnitude (roundMagnitude_le n d))

theorem f32IsFinite_round_iff : f32IsFinite (f32Pack sign (roundMagnitude n d)) = true ↔
    roundMagnitude n d < infMagnitude :=
  f32IsFinite_pack (roundMagnitude_le n d)

/-- A rounded fraction is an infinity exactly from the midpoint above the largest finite number. -/
theorem f32IsInf_round_iff (hd : 0 < d) :
    f32IsInf (f32Pack sign (roundMagnitude n d)) = true ↔ (2 ^ 25 - 1) * 2 ^ 252 * d ≤ n := by
  have hmid : (2 ^ 25 - 1) * 2 ^ 252 * d = 33554431 * (d * 2 ^ 252) := by
    rw [show 2 ^ 25 - 1 = 33554431 from rfl]
    ring
  rw [f32IsInf_pack (roundMagnitude_le n d), roundMagnitude_overflow hd, hmid]

/-- A finite rounded fraction is nearest, and even where another number is as near. -/
theorem nearestEven_round (hd : 0 < d)
    (hfin : f32IsFinite (f32Pack sign (roundMagnitude n d)) = true) :
    nearestEven n d (f32Pack sign (roundMagnitude n d)) := by
  intro c hc
  obtain ⟨sig, scale, hunits, hsig, -, -⟩ := f32Units_scaled c hc
  rw [getLsbD_zero_pack, f32Units_round, hunits]
  exact roundMagnitude_nearest hd ((f32IsFinite_round_iff sign).1 hfin) hsig

end Rounded

/-- A fraction of at most `2 ^ 252` units rounds to a finite number. -/
theorem roundMagnitude_lt_infMagnitude {n d : Nat} (hd : 0 < d) (hn : n ≤ 2 ^ 252 * d) :
    roundMagnitude n d < infMagnitude := by
  refine lt_of_le_of_ne (roundMagnitude_le n d) fun hinf => ?_
  rw [roundMagnitude_overflow hd] at hinf
  omega

/-- A fraction that is a significand of at most 24 bits at a scale has these units after rounding. -/
theorem magnitudeUnits_round_exact {d sig scale : Nat} (hd : 0 < d) (hsig : sig < 2 ^ 24)
    (hfin : sig * 2 ^ scale ≤ 2 ^ 252) :
    magnitudeUnits (roundMagnitude (sig * 2 ^ scale * d) d) = sig * 2 ^ scale :=
  Nat.eq_of_mul_eq_mul_right hd (roundMagnitude_exact hd hsig rfl
    (roundMagnitude_lt_infMagnitude hd (Nat.mul_le_mul_right d hfin)))

/-! ## Special operands -/

theorem f32IsNaN_fmul32_iff (a b : F32) :
    f32IsNaN (fmul32 a b) = true ↔
      f32IsNaN a = true ∨ f32IsNaN b = true ∨ (f32IsInf a = true ∧ f32IsZero b = true) ∨
        (f32IsZero a = true ∧ f32IsInf b = true) := by
  rcases fmul32_cases a b with ⟨hab, he⟩ | ⟨hab, he⟩ | ⟨hab, he⟩ <;> rw [he]
  · exact iff_of_true (f32IsNaN_quietNaN a b) hab
  · rw [not_f32IsNaN_pack le_rfl]
    grind [f32IsFinite_iff, f32_class]
  · rw [not_f32IsNaN_pack (roundMagnitude_le _ _)]
    grind [f32IsFinite_iff, f32_class]

theorem f32IsNaN_fdiv32_iff (a b : F32) :
    f32IsNaN (fdiv32 a b) = true ↔
      f32IsNaN a = true ∨ f32IsNaN b = true ∨ (f32IsInf a = true ∧ f32IsInf b = true) ∨
        (f32IsZero a = true ∧ f32IsZero b = true) := by
  rcases fdiv32_cases a b with ⟨hab, he⟩ | ⟨hab, he⟩ | ⟨hab, he⟩ | ⟨hab, he⟩ <;> rw [he]
  · exact iff_of_true (f32IsNaN_quietNaN a b) hab
  · rw [not_f32IsNaN_pack le_rfl]
    grind [f32IsFinite_iff, f32_class]
  · rw [not_f32IsNaN_pack (Nat.zero_le _)]
    grind [f32IsFinite_iff, f32_class]
  · rw [not_f32IsNaN_pack (roundMagnitude_le _ _)]
    grind [f32IsFinite_iff, f32_class]

/-- A product that is no NaN has the sign of IEEE 754. -/
theorem f32Sign_fmul32 {a b : F32} (h : f32IsNaN (fmul32 a b) = false) :
    f32Sign (fmul32 a b) = (f32Sign a ^^ f32Sign b) := by
  rcases fmul32_cases a b with ⟨_, he⟩ | ⟨_, he⟩ | ⟨_, he⟩ <;> rw [he] at h ⊢
  · exact absurd (f32IsNaN_quietNaN a b) (Bool.eq_false_iff.1 h)
  all_goals exact f32Sign_pack _ _

/-- A quotient that is no NaN has the sign of IEEE 754. -/
theorem f32Sign_fdiv32 {a b : F32} (h : f32IsNaN (fdiv32 a b) = false) :
    f32Sign (fdiv32 a b) = (f32Sign a ^^ f32Sign b) := by
  rcases fdiv32_cases a b with ⟨_, he⟩ | ⟨_, he⟩ | ⟨_, he⟩ | ⟨_, he⟩ <;> rw [he] at h ⊢
  · exact absurd (f32IsNaN_quietNaN a b) (Bool.eq_false_iff.1 h)
  all_goals exact f32Sign_pack _ _

/-- An infinity times a number that is neither a NaN nor a zero, in either order, is an infinity. -/
theorem f32IsInf_fmul32 {a b : F32} (hna : f32IsNaN a = false) (hnb : f32IsNaN b = false)
    (hza : f32IsZero a = false) (hzb : f32IsZero b = false)
    (hinf : f32IsInf a = true ∨ f32IsInf b = true) : f32IsInf (fmul32 a b) = true := by
  rcases fmul32_cases a b with ⟨hab, he⟩ | ⟨hab, he⟩ | ⟨hab, he⟩
  · grind
  · rw [he, f32IsInf_pack le_rfl]
  · grind [f32IsFinite_iff]

/-- An infinity over a finite number, and a finite nonzero number over a zero, is an infinity. -/
theorem f32IsInf_fdiv32 {a b : F32}
    (hab : (f32IsInf a = true ∧ f32IsFinite b = true) ∨
      (f32IsFinite a = true ∧ f32IsZero a = false ∧ f32IsZero b = true)) :
    f32IsInf (fdiv32 a b) = true := by
  rcases fdiv32_cases a b with ⟨hab', he⟩ | ⟨_, he⟩ | ⟨hab', he⟩ | ⟨hab', he⟩
  · grind [f32IsFinite_iff, f32_class]
  · rw [he, f32IsInf_pack le_rfl]
  · grind [f32IsFinite_iff, f32_class]
  · grind [f32IsFinite_iff, f32_class]

/-- A finite number over an infinity is a zero. -/
theorem f32IsZero_fdiv32 {a b : F32} (ha : f32IsFinite a = true) (hb : f32IsInf b = true) :
    f32IsZero (fdiv32 a b) = true := by
  rcases fdiv32_cases a b with ⟨hab, he⟩ | ⟨hab, he⟩ | ⟨_, he⟩ | ⟨hab, he⟩
  · grind [f32IsFinite_iff, f32_class]
  · grind [f32IsFinite_iff, f32_class]
  · rw [he, f32IsZero_pack_zero]
  · grind [f32IsFinite_iff, f32_class]

/-! ## Whole numbers -/

/-- Every whole number below `2 ^ 32` becomes a finite number. -/
theorem f32IsFinite_f32 {n : Nat} (hn : n < 2 ^ 32) : f32IsFinite (f32 n) = true :=
  (f32IsFinite_round_iff false).2 (roundMagnitude_lt_infMagnitude (by decide) (by omega))

@[simp] theorem f32Sign_f32 (n : Nat) : f32Sign (f32 n) = false := f32Sign_pack false _

/-! ## The obligations -/

/-- Settles O29: each operation on finite numbers rounds an exact fraction once, to the nearest, ties to even
(`nearestEven_round`). -/
theorem binary32RoundsToNearestEven : Obligations.Binary32RoundsToNearestEven := by
  refine ⟨fun n hn => ?whole, fun a b ha hb hfin => ?product, fun a b ha hb hzb hfin => ?quotient⟩
  case whole =>
    have hfin := f32IsFinite_f32 hn
    exact ⟨f32Sign_f32 n, hfin, nearestEven_round false (by decide) hfin⟩
  case product =>
    rw [fmul32_of_finite ha hb] at hfin ⊢
    exact ⟨f32Sign_pack _ _, nearestEven_round _ (Nat.two_pow_pos 149) hfin⟩
  case quotient =>
    rw [fdiv32_of_finite ha hb hzb] at hfin ⊢
    exact ⟨f32Sign_pack _ _, nearestEven_round _ (f32Units_pos hzb) hfin⟩

/-- Settles O30, clause by clause: NaNs, infinities, overflow, zeros and signs. -/
theorem binary32SpecialOperands : Obligations.Binary32SpecialOperands := by
  intro a b
  refine ⟨f32IsNaN_fmul32_iff a b, f32IsNaN_fdiv32_iff a b, fun ha hnb hzb => ?infTimes,
    fun hna hza hb => ?timesInf, fun ha hb => ?productOverflow, fun ha hb => ?infOver,
    fun ha hb => f32IsZero_fdiv32 ha hb, fun ha hza hzb => ?overZero,
    fun ha hb hzb => ?quotientOverflow, f32Sign_fmul32, f32Sign_fdiv32⟩
  case infTimes =>
    exact f32IsInf_fmul32 ((f32_class a).1 ha) hnb (by grind [f32_class]) hzb (.inl ha)
  case timesInf =>
    exact f32IsInf_fmul32 hna ((f32_class b).1 hb) hza (by grind [f32_class]) (.inr hb)
  case productOverflow =>
    rw [fmul32_of_finite ha hb]
    exact f32IsInf_round_iff _ (Nat.two_pow_pos 149)
  case infOver => exact f32IsInf_fdiv32 (.inl ⟨ha, hb⟩)
  case overZero => exact f32IsInf_fdiv32 (.inr ⟨ha, hza, hzb⟩)
  case quotientOverflow =>
    rw [fdiv32_of_finite ha hb hzb]
    exact f32IsInf_round_iff _ (f32Units_pos hzb)

end Sys2Proof.Machine

/-!
PROOFS. The angle converter (41_angle.md R128 to R132): the numbers it passes through, which of them are exact, and
the range of the angle.
-/

namespace Sys2Proof.Machine

open Sys2Proof.Claims

/-! ## The operands -/

/-- A whole number of at most 24 significant bits becomes itself (R129). -/
theorem f32Units_f32_scaled {m e : Nat} (hm : m < 2 ^ 24) (hn : m * 2 ^ e < 2 ^ 32) :
    f32Units (f32 (m * 2 ^ e)) = m * 2 ^ e * 2 ^ 149 := by
  have hscale : m * 2 ^ e * 2 ^ 149 = m * 2 ^ (e + 149) := by rw [Nat.pow_add, Nat.mul_assoc]
  have hexact := magnitudeUnits_round_exact (scale := e + 149) Nat.one_pos hm (by omega)
  rw [f32, f32Units_round, hscale]
  simpa using hexact

theorem f32Units_f32_of_lt {n : Nat} (hn : n < 2 ^ 24) : f32Units (f32 n) = n * 2 ^ 149 := by
  simpa using f32Units_f32_scaled (e := 0) hn (by omega)

/-- A whole number is exact only if it has at most 24 significant bits: no finite number has more (R129). -/
theorem significand_of_f32Units_f32 {n : Nat} (hn : n < 2 ^ 32)
    (h : f32Units (f32 n) = n * 2 ^ 149) : ∃ m e : Nat, m < 2 ^ 24 ∧ n = m * 2 ^ e := by
  obtain ⟨sig, scale, hunits, hsig, -, -⟩ := f32Units_scaled _ (f32IsFinite_f32 hn)
  rw [h] at hunits
  rcases Nat.le_total 149 scale with hle | hle
  · obtain ⟨e, rfl⟩ := Nat.exists_eq_add_of_le' hle
    refine ⟨sig, e, hsig, Nat.eq_of_mul_eq_mul_right (Nat.two_pow_pos 149) ?_⟩
    rw [hunits, Nat.pow_add, Nat.mul_assoc]
  · have hpow : 2 ^ scale ≤ 2 ^ 149 := Nat.pow_le_pow_right (by decide) hle
    have hmul : sig * 2 ^ scale ≤ sig * 2 ^ 149 := Nat.mul_le_mul_left sig hpow
    exact ⟨n, 0, by omega, by simp⟩

/-- Rounding a whole number does not take it below a power of two. -/
theorem le_f32Units_f32 {n k : Nat} (hn : n < 2 ^ 32) (hk : 2 ^ k ≤ n) :
    2 ^ k * 2 ^ 149 ≤ f32Units (f32 n) := by
  have hfin := (f32IsFinite_round_iff false).1 (f32IsFinite_f32 hn)
  have hge := roundMagnitude_ge_of_ge (s := 1) (j := k + 149) Nat.one_pos (by decide)
    (by rw [Nat.pow_add]; omega) hfin
  rw [f32, f32Units_round, ← Nat.pow_add]
  omega

/-- No whole number below `2 ^ 32` rounds above that. -/
theorem f32Units_f32_le {n : Nat} (hn : n < 2 ^ 32) : f32Units (f32 n) ≤ 2 ^ 181 := by
  have hfin := (f32IsFinite_round_iff false).1 (f32IsFinite_f32 hn)
  have hle := roundMagnitude_le_of_le (s := 1) (j := 181) Nat.one_pos (by decide) (by omega) hfin
  rw [f32, f32Units_round]
  omega

theorem f32IsZero_f32 {n : Nat} (hn : n < 2 ^ 32) (h0 : n ≠ 0) : f32IsZero (f32 n) = false := by
  have hunits := le_f32Units_f32 (k := 0) hn (by omega)
  rw [Bool.eq_false_iff]
  intro hzero
  rw [f32Units_of_f32IsZero hzero] at hunits
  omega

/-! ## The product -/

/-- 360 in units. -/
theorem f32Units_deg360 : f32Units deg360 = 45 * 2 ^ 152 := by decide +kernel

/-- The product of a position and 360 is exact: `P * 45` has at most 24 bits (R129). -/
theorem product_spec (p : Position) :
    f32Sign (fmul32 (f32 p.toNat) deg360) = false ∧
    f32IsFinite (fmul32 (f32 p.toNat) deg360) = true ∧
    f32Units (fmul32 (f32 p.toNat) deg360) = p.toNat * 360 * 2 ^ 149 := by
  have hp : p.toNat < 2 ^ 18 := p.isLt
  have hprod : f32Units (f32 p.toNat) * f32Units deg360 = p.toNat * 45 * 2 ^ 152 * 2 ^ 149 := by
    rw [f32Units_f32_of_lt (by omega), f32Units_deg360]
    ring
  have hround := magnitudeUnits_round_exact (sig := p.toNat * 45) (scale := 152)
    (Nat.two_pow_pos 149) (by omega) (by omega)
  rw [fmul32_of_finite (f32IsFinite_f32 (by omega)) (by decide), hprod]
  refine ⟨by rw [f32Sign_pack, f32Sign_f32]; decide, ?_, ?_⟩
  · rw [f32IsFinite_round_iff]
    exact roundMagnitude_lt_infMagnitude (Nat.two_pow_pos 149) (by omega)
  · rw [f32Units_round, hround]
    omega

/-! ## The angle -/

/-- The fraction of units that the converter rounds at last (R128). -/
def angleNum (p : Position) : Nat := p.toNat * 360 * 2 ^ 149 * 2 ^ 149

/-- The angle is one rounding of the exact product over the rounded resolution. -/
theorem angleOf_eq (p : Position) {r : Resolution} (hr : r ≠ 0) :
    angleOf p r = f32Pack false (roundMagnitude (angleNum p) (f32Units (f32 r.toNat))) := by
  obtain ⟨hsign, hfin, hunits⟩ := product_spec p
  have hr0 : r.toNat ≠ 0 := fun h => hr (BitVec.eq_of_toNat_eq h)
  have hdiv := fdiv32_of_finite hfin (f32IsFinite_f32 r.isLt) (f32IsZero_f32 r.isLt hr0)
  rw [hsign, f32Sign_f32, hunits] at hdiv
  exact hdiv

/-- The divisor of a set resolution is at least 1. -/
theorem one_le_divisor {r : Resolution} (hr : r ≠ 0) : 2 ^ 149 ≤ f32Units (f32 r.toNat) := by
  have hr0 : r.toNat ≠ 0 := fun h => hr (BitVec.eq_of_toNat_eq h)
  have h := le_f32Units_f32 (k := 0) r.isLt (by omega)
  omega

theorem angleNum_lt (p : Position) : angleNum p < 2 ^ 18 * 360 * 2 ^ 149 * 2 ^ 149 := by
  have hp : p.toNat < 2 ^ 18 := p.isLt
  unfold angleNum
  omega

/-- The angle does not overflow: it is at most `2 ^ 18 * 360`. -/
theorem angle_lt_infMagnitude (p : Position) {r : Resolution} (hr : r ≠ 0) :
    roundMagnitude (angleNum p) (f32Units (f32 r.toNat)) < infMagnitude := by
  have hdiv := one_le_divisor hr
  have hnum := angleNum_lt p
  exact roundMagnitude_lt_infMagnitude (by omega) (by omega)

/-- Below the resolution, the exact quotient is at most the number `360 * (1 - 2 ^ -18)`, which is below 360. -/
theorem angleNum_le_of_lt {p : Position} {r : Resolution} (h : p.toNat < r.toNat) :
    angleNum p ≤ 11796435 * 2 ^ 134 * f32Units (f32 r.toNat) := by
  have hp : p.toNat < 2 ^ 18 := p.isLt
  unfold angleNum
  rcases Nat.lt_or_ge r.toNat (2 ^ 24) with hr | hr
  · rw [f32Units_f32_of_lt hr]
    omega
  · have hdiv := le_f32Units_f32 (k := 24) r.isLt hr
    linarith

/-- The angle is below 360 exactly when the position is below the resolution (R131). -/
theorem f32Units_angleOf_lt_iff (p : Position) {r : Resolution} (hr : r ≠ 0) :
    f32Units (angleOf p r) < 360 * 2 ^ 149 ↔ p.toNat < r.toNat := by
  have hp : p.toNat < 2 ^ 18 := p.isLt
  have hdiv := one_le_divisor hr
  have hfin := angle_lt_infMagnitude p hr
  rw [angleOf_eq p hr, f32Units_round]
  constructor
  · intro hlt
    by_contra hge
    have hexact : f32Units (f32 r.toNat) = r.toNat * 2 ^ 149 := f32Units_f32_of_lt (by omega)
    have hle := roundMagnitude_ge_of_ge (s := 45) (j := 152) (by omega) (by decide)
      (by rw [hexact, angleNum]; omega) hfin
    omega
  · intro hlt
    have hle := roundMagnitude_le_of_le (by omega) (by decide) (angleNum_le_of_lt hlt) hfin
    omega

/-- The angle of a nonzero position is a normal number: it is at least `2 ^ -24` (R131). -/
theorem one_le_f32Exp_angleOf {p : Position} {r : Resolution} (hr : r ≠ 0) (hp : p ≠ 0) :
    1 ≤ f32Exp (angleOf p r) := by
  have hp0 : p.toNat ≠ 0 := fun h => hp (BitVec.eq_of_toNat_eq h)
  have hdiv := one_le_divisor hr
  have hmax := f32Units_f32_le r.isLt
  have hge := roundMagnitude_ge_of_ge (s := 1) (j := 125) (by omega) (by decide)
    (by rw [angleNum]; omega) (angle_lt_infMagnitude p hr)
  apply one_le_f32Exp
  rw [angleOf_eq p hr, f32Units_round]
  omega

/-- For a resolution that is a power of two the angle is exact (R129). -/
theorem f32Units_angleOf_two_pow (p : Position) {k : Nat} (hk : k ≤ 31) :
    f32Units (angleOf p (BitVec.ofNat 32 (2 ^ k))) * 2 ^ k = p.toNat * 360 * 2 ^ 149 := by
  have hp : p.toNat < 2 ^ 18 := p.isLt
  have hpow : 2 ^ k ≤ 2 ^ 31 := Nat.pow_le_pow_right (by decide) hk
  have hpos : 0 < 2 ^ k := Nat.two_pow_pos k
  have hr : (BitVec.ofNat 32 (2 ^ k)).toNat = 2 ^ k := by
    rw [BitVec.toNat_ofNat, Nat.mod_eq_of_lt (by omega)]
  have hr0 : BitVec.ofNat 32 (2 ^ k) ≠ 0 := by
    intro h0
    rw [h0] at hr
    exact hpos.ne hr
  have hdiv : f32Units (f32 (2 ^ k)) = 2 ^ k * 2 ^ 149 := by
    simpa using f32Units_f32_scaled (m := 1) (e := k) (by decide) (by omega)
  have hscale : 2 ^ (152 - k) * 2 ^ k = 2 ^ 152 := by
    rw [← Nat.pow_add, Nat.sub_add_cancel (by omega)]
  have hnum : angleNum p = p.toNat * 45 * 2 ^ (152 - k) * (2 ^ k * 2 ^ 149) := by
    calc angleNum p = p.toNat * 45 * 2 ^ 152 * 2 ^ 149 := by rw [angleNum]; ring
      _ = p.toNat * 45 * 2 ^ (152 - k) * (2 ^ k * 2 ^ 149) := by rw [← hscale]; ring
  have hexact := roundMagnitude_exact (Nat.mul_pos hpos (Nat.two_pow_pos 149)) (by omega) hnum
    (hdiv ▸ hr ▸ angle_lt_infMagnitude p hr0)
  rw [angleOf_eq p hr0, f32Units_round, hr, hdiv]
  rw [← Nat.mul_assoc, angleNum] at hexact
  exact Nat.eq_of_mul_eq_mul_right (Nat.two_pow_pos 149) hexact

/-! ## The obligations -/

/-- Settles O27: positions and their products with 360 fit 24 bits, and a resolution is exact when it does. -/
theorem exactStepsOfTheConversion : Obligations.ExactStepsOfTheConversion := by
  refine ⟨fun p => f32Units_f32_of_lt (by have := p.isLt; omega), fun p => ?product,
    fun r => ⟨significand_of_f32Units_f32 r.isLt, ?resolution⟩, by decide +kernel,
    fun p k hk => f32Units_angleOf_two_pow p hk⟩
  case product =>
    obtain ⟨-, -, hunits⟩ := product_spec p
    exact hunits
  case resolution =>
    rintro ⟨m, e, hm, hr⟩
    rw [hr]
    exact f32Units_f32_scaled hm (hr ▸ r.isLt)

/-- Settles O28: the angle is one rounding of a fraction that does not overflow, and rounding does not cross 360. -/
theorem angleIsFiniteAndBelow360WhenInRange : Obligations.AngleIsFiniteAndBelow360WhenInRange := by
  intro p r hr
  refine ⟨?_, ?_, ?_, one_le_f32Exp_angleOf hr, f32Units_angleOf_lt_iff p hr⟩
  · rw [angleOf_eq p hr, f32Sign_pack]
  · rw [angleOf_eq p hr, f32IsFinite_round_iff]
    exact angle_lt_infMagnitude p hr
  · rintro rfl
    have hzero : angleNum 0 = 0 := rfl
    rw [angleOf_eq 0 hr, hzero, roundMagnitude_zero]
    rfl

/-- Settles O31: the frame passes by construction, so DECANG answers its angle, whose range O28 gives. -/
theorem synthesisedFrameDecodes : Obligations.SynthesisedFrameDecodes := by
  intro b0 b1 b2 b3 b4 s hstatus hres
  have hpass := exec_decang_of_passes (s := s) (f := ⟨b0, b1, b2, b3, b4, ~~~(sum5 s.table b0 b1 b2 b3 b4)⟩)
    rfl hstatus
  rw [State.respondAngle, if_neg (by exact hres)] at hpass
  obtain ⟨hangle, -, -⟩ := angleData_fields ((b2 ++ b3 ++ b4).extractLsb' 6 18) s.res
  obtain ⟨hsign, -, -, -, hlt⟩ :=
    angleIsFiniteAndBelow360WhenInRange ((b2 ++ b3 ++ b4).extractLsb' 6 18) s.res hres
  refine ⟨_, hpass, rfl, rfl, ?_⟩
  rw [← hangle] at hsign hlt
  exact (and_iff_right hsign).trans hlt

end Sys2Proof.Machine
